-- ==== Sys2Proof/Word.lean ====
section
/-!
DEFINITION. The two word types of the framer (00_scope.md R9): `u8` and `u16`. Nothing is signed.
The byte-order helpers over them stand in Machine/Ops.lean.
-/

namespace Sys2Proof

/-- `u8`: an unsigned 8-bit value (R9). -/
abbrev Byte := BitVec 8

/-- `u16`: an unsigned 16-bit value (R9), the width of the checksum (R7 `CRC_WIDTH`). -/
abbrev Word := BitVec 16

end Sys2Proof
end

