-- ==== Sys2Proof/Config.lean ====
section
/-!
DEFINITION. The implementation parameters of 00_scope.md R7: the fixed ones as named constants, and the one OPEN
parameter, `CRC_INIT`, as the field of a record that each framer carries (R65: "a model takes it as an argument").
-/

namespace Sys2Proof

/-- What is fixed when a framer is built and left open by the spec: `CRC_INIT` (R65, 92_eei_decisions.md D6). -/
structure Config where
  /-- `CRC_INIT`, the initial value of the CRC register (R65). -/
  crcInit : Word
  deriving DecidableEq, Repr

namespace Config

/-- `DELIM`, the single reserved delimiter byte (R7). -/
abbrev delim : Byte := 0xFF#8

/-- `MAX_PAYLOAD`, the largest payload length ENCODE accepts (R7). -/
abbrev maxPayload : Nat := 251

/-- `RBUF_CAP`, the capacity of the reassembly buffer (R7, R14). -/
abbrev rbufCap : Nat := 254

/-- `WBUF_CAP = MAX_PAYLOAD + 4`, the capacity of the encoder's working buffer (R7, R17). -/
abbrev wbufCap : Nat := 255

/-- `MIN_BODY`, the smallest accepted frame-body length (R7, R92, 90_conflicts.md C2). -/
abbrev minBody : Nat := 3

/-- `MAX_RX_PAYLOAD = RBUF_CAP - 4`, the largest payload INGEST can deliver (R7, R97). -/
abbrev maxRxPayload : Nat := 250

/-- `CRC_POLY`, the generator x^16 + x^12 + x^5 + 1 with the x^16 term implicit (R64).
PRESUMED: the spec marks the polynomial as general knowledge (log entry 12). -/
abbrev crcPoly : Word := 0x1021#16

/-- The recommended default of `CRC_INIT` (R65). DESIGN CHOICE where `State.reset` uses it (log entry 3). -/
def crcInitDefault : Word := 0xFFFF#16

/-- A framer built with the default parameter. -/
def default : Config := ⟨crcInitDefault⟩

end Config

end Sys2Proof
end

