-- ==== Sys2Proof/Syntax.lean ====
section
/-!
DEFINITION. The operations: one constructor of `Instr` for each row of spec/opcode_table.json, and the command record by
which the host names a host operation (30_encoding.md R56 to R60).
-/

namespace Sys2Proof

/-- The two buffers of 20_memory.md R28, as the operand `B` of `CRC_APPEND` (R69). -/
inductive Buffer where
  /-- `RBUF`, the reassembly buffer. -/
  | rbuf
  /-- `WBUF`, the encoder's working buffer. -/
  | wbuf
  deriving DecidableEq, Repr

/-- The operations of spec/opcode_table.json. A length operand and its byte string are one list here: `size = |PIN|` (R58) and
`k = |RXIN|` (R59); in a `Command` they are two fields, and the decoder checks that they agree (log entry 14). -/
inductive Instr where
  /-- `RESET`, code 00 (R57, R99). -/
  | reset
  /-- `ENCODE(size, PIN)`, code 01 (R58, R79). -/
  | encode (pin : List Byte)
  /-- `INGEST(k, RXIN)`, code 10 (R59, R94). -/
  | ingest (rxin : List Byte)
  /-- The reserved code 11, which names no operation (R60). -/
  | reserved
  /-- `CRC_PARTIAL(prior, bytes)`, internal (R67). -/
  | crcPartial (prior : Word) (bytes : List Byte)
  /-- `CRC_OF(bytes)`, internal (R68). -/
  | crcOf (bytes : List Byte)
  /-- `CRC_APPEND(B, a, n)`, internal (R69). -/
  | crcAppend (b : Buffer) (a n : Nat)
  /-- `CRC_VERIFY(bytes)`, internal (R70). -/
  | crcVerify (bytes : List Byte)
  /-- `DECODE w`: `RESET` followed by `INGEST w` (R63). -/
  | decode (w : List Byte)
  /-- `FEED w / c_1, ..., c_n`: `INGEST` of the consecutive chunks of `w` in turn (R63). -/
  | feed (w : List Byte) (lens : List Nat)
  /-- `POLL`: `INGEST` with `k = 0` (R63). -/
  | poll
  deriving DecidableEq, Repr

/-- What the host hands over to issue one operation: the command code `op[1:0]` and the operand fields of format OPV, a length and
a byte string (R56, R58, R59). Format OP0 (R57) has no operands: length 0 and an empty string (log entry 7). -/
structure Command where
  /-- `op[1:0]`. -/
  op : BitVec 2
  /-- `size` of ENCODE, `k` of INGEST. -/
  length : Nat
  /-- `PIN` of ENCODE, `RXIN` of INGEST. -/
  data : List Byte
  deriving DecidableEq, Repr

/-- Why a command record is no operation. -/
inductive DecodeError where
  /-- Code 11 (R60). -/
  | reservedCode
  /-- The length field is not the number of bytes of the byte string (R58, R59). -/
  | operandLength
  /-- RESET with operands (R57: "Operands: none"). -/
  | operandOnReset
  deriving DecidableEq, Repr

end Sys2Proof
end

