-- ==== Sys2Proof/Machine/State.lean ====
section
/-!
DEFINITION. The state of one framer, the outputs of its operations, and the reasons a step can stop.
-/

namespace Sys2Proof.Machine

/-- A byte buffer: the cells that do not hold the blank byte, by offset, in one canonical form (`Memory.wf` in Ops.lean). -/
abbrev Memory := List Host.Cell

/-- `rx_cause`, the outcome of an INGEST (60_exceptions.md R101); its 2-bit code is `RxCause.code` in Flags.lean. -/
inductive RxCause where
  /-- No delimiter in the buffer after append and strip (R107). -/
  | noFrame
  /-- A verified payload is delivered. -/
  | deliver
  /-- A delimiter at an offset below `MIN_BODY` (R104). -/
  | rejectShort
  /-- A body whose checksum residue is not zero (R105). -/
  | rejectCrc
  deriving DecidableEq, Repr

/-- The results of ENCODE (R58): `TX` is absent when `enc_ok = 0` (93_implementation_defined.md U11). -/
structure EncResult where
  /-- `enc_ok`. -/
  encOk : Bool
  /-- `TX`. -/
  tx : Option (List Byte)
  deriving DecidableEq, Repr

/-- The results of INGEST (R59, R83): `rx_len` and `POUT` are absent when `rx_valid = 0` (U11). -/
structure RxResult where
  /-- `rx_valid`. -/
  rxValid : Bool
  /-- `rx_len`. -/
  rxLen : Option Nat
  /-- `POUT`. -/
  pout : Option (List Byte)
  /-- `rx_dropped`. -/
  rxDropped : Nat
  /-- `rx_cause`. -/
  rxCause : RxCause
  deriving DecidableEq, Repr

/-- What one operation returns to whatever invoked it. RESET returns nothing (R57). -/
inductive OpResult where
  /-- From ENCODE. -/
  | enc (r : EncResult)
  /-- From INGEST. -/
  | rx (r : RxResult)
  /-- The `u16` of CRC_PARTIAL, CRC_OF and CRC_APPEND (R67, R68, R69). -/
  | crc (v : Word)
  /-- The `bool` of CRC_VERIFY (R70). -/
  | check (ok : Bool)
  deriving DecidableEq, Repr

/-- One framer. `rbuf` and `rlen` are the persistent state of R13; `wbuf` is the storage R23 calls unobservable; `cfg` is the
build-time parameter; `cmds` and `results` are the model's own (log entries 1 and 2). -/
structure State where
  /-- `RBUF`, offsets 0..253 (R14). -/
  rbuf : Memory
  /-- `RLEN`, legal values 0..254 (R15, R21). -/
  rlen : BitVec 8
  /-- `WBUF`, offsets 0..254 (R17, R23). -/
  wbuf : Memory
  /-- The parameter `CRC_INIT`, fixed for the life of the framer (R27, R65). -/
  cfg : Config
  /-- The commands the host has issued and the framer has not performed, oldest first (R40). -/
  cmds : List Command
  /-- The outputs of the operation performed last, in the order it produced them (R20, R119). -/
  results : List OpResult
  deriving DecidableEq, Repr

/-- The working registers of INGEST that its steps pass on (R18): the buffer, its length and the count of dropped bytes. They do
not exist between operations (R119). -/
structure RxWork where
  /-- `RBUF` during the operation. -/
  rbuf : Memory
  /-- `RLEN` during the operation. -/
  rlen : BitVec 8
  /-- `dropped` (R18). -/
  dropped : Nat
  deriving DecidableEq, Repr

/-- Why the machine stops with a fault. The spec has no fault (R100); both of these are the model's, and no step of a framer whose
`RLEN` is legal raises one. -/
inductive Fault where
  /-- Raised by INGEST, FEED and POLL in a state with `RLEN = 255`, which "never occurs" (R21, R24): the operation would read
  `RBUF[254]`, a cell that does not exist. Safe. -/
  | rbufBounds
  /-- Raised by CRC_APPEND when the cells `B[a+n]` and `B[a+n+1]` do not both exist (R69 says they must). Safe. -/
  | appendBounds
  deriving DecidableEq, Repr

/-- Why the machine refuses. -/
inductive Refusal where
  /-- Raised by an arm of `exec` that has no meaning yet, with the row's mnemonic. Safe. -/
  | notModelled (mnemonic : String)
  /-- Raised for command code 11: "a model refuses it" (R60, U6). Safe. -/
  | reservedCode
  /-- Raised by `step` for a command whose length field is not the length of its byte string (R58, R59). Safe. -/
  | operandLength
  /-- Raised by `step` for a RESET command with operands (R57). Safe. -/
  | operandOnReset
  deriving DecidableEq, Repr

/-- The framer right after RESET, with nothing issued to it: `RLEN = 0` (R26, R119) and no outputs pending (R119). The cells of RBUF
and WBUF are "unspecified, unobservable": DESIGN CHOICE, nothing is listed, so each reads as the blank byte (log entry 4).
`CRC_INIT` has the spec's default: DESIGN CHOICE (log entry 3). -/
def State.reset : State where
  rbuf := []
  rlen := 0
  wbuf := []
  cfg := Config.default
  cmds := []
  results := []

end Sys2Proof.Machine
end

