-- ==== Sys2Proof/Machine/Ops.lean ====
section
/-!
DEFINITION. The named operations over buffers and results. The framer has no exception to take and none to return from
(60_exceptions.md R100, R112); what every operation does in that place, returning its outputs, is `State.returns`.
-/

namespace Sys2Proof.Machine

/-! ### Byte order (R9, R31) -/

/-- `hi8(v) = v[15:8]` (R9). -/
def hi8 (v : Word) : Byte := v.extractLsb' 8 8

/-- `lo8(v) = v[7:0]` (R9). -/
def lo8 (v : Word) : Byte := v.extractLsb' 0 8

/-- `be16(h, l) = (h << 8) | l` (R9). -/
def be16 (h l : Byte) : Word := h ++ l

/-! ### Buffers (R28, R29, R35: one byte at any offset) -/

namespace Memory

/-- What a cell that nothing has written reads as. DESIGN CHOICE: the spec calls such a cell unspecified (R26), and no rule reads one
(R39) (log entry 4). -/
def blank : Byte := 0

/-- `B[k]`: read one byte (R11). -/
def read : Memory → Nat → Byte
  | [], _ => blank
  | (a, v) :: m, k => if a = k then v else read m k

/-- Insert a cell before the first cell of a higher offset. -/
def insertCell (k : Nat) (v : Byte) : Memory → Memory
  | [] => [(k, v)]
  | (a, w) :: m => if k < a then (k, v) :: (a, w) :: m else (a, w) :: insertCell k v m

/-- `B[k] <- v`: write one byte (R11), keeping the canonical form. -/
def write (m : Memory) (k : Nat) (v : Byte) : Memory :=
  let others : Memory := m.filter (fun c => c.1 != k)
  if v = blank then others else insertCell k v others

/-- The canonical form: offsets strictly rising, no cell equal to what an unlisted offset reads as. -/
abbrev wf (m : Memory) : Prop := m.Pairwise (fun c d => c.1 < d.1) ∧ ∀ c ∈ m, c.2 ≠ blank

/-- Every listed cell lies inside a buffer of `cap` cells. -/
abbrev within (m : Memory) (cap : Nat) : Prop := ∀ c ∈ m, c.1 < cap

/-- The slice `B[a..a+n)` (R10). -/
def slice (m : Memory) (a : Nat) : Nat → List Byte
  | 0 => []
  | n + 1 => read m a :: slice m (a + 1) n

/-- Write consecutive bytes from offset `a` up, in order. -/
def writeBytes (m : Memory) (a : Nat) : List Byte → Memory
  | [] => m
  | b :: bs => writeBytes (write m a b) (a + 1) bs

end Memory

/-! ### Outputs and sequencing -/

/-- The outputs of an operation are returned to the host (R20: "outputs, not state"). They take the place of the outputs of the
operation before (R119: "outputs belong to the operation that produced them"). -/
def State.returns (s : State) (rs : List OpResult) : State := { s with results := rs }

/-- `RLEN <- 0`: what RESET and a successful ENCODE do to the receive side (R78, R99). -/
def State.emptyRx (s : State) : State := { s with rlen := 0 }

/-- `acc = RBUF[0..RLEN)`, "the observable content of the persistent state" (R16). -/
def State.acc (s : State) : List Byte := Memory.slice s.rbuf 0 s.rlen.toNat

/-- One operation after another, the second from the state the first leaves (R40). -/
def andThen (o : Host.Outcome State Fault Refusal) (f : State → Host.Outcome State Fault Refusal) :
    Host.Outcome State Fault Refusal :=
  match o with
  | .next s => f s
  | .fault r => .fault r
  | .refused r => .refused r

end Sys2Proof.Machine
end

