-- ==== Sys2Proof/Machine/Flags.lean ====
section
/-!
DEFINITION. The status outputs that "play the part of condition codes" (10_state.md R20): `enc_ok`, `rx_valid`, `rx_cause`, and the
results built from them (60_exceptions.md R101).
-/

namespace Sys2Proof.Machine

/-- The 2-bit code of `rx_cause` (R83, R101). -/
def RxCause.code : RxCause → BitVec 2
  | .noFrame => 0
  | .deliver => 1
  | .rejectShort => 2
  | .rejectCrc => 3

/-- `rx_valid = 1` exactly when `rx_cause = DELIVER` (R83). -/
def RxCause.valid : RxCause → Bool
  | .noFrame => false
  | .deliver => true
  | .rejectShort => false
  | .rejectCrc => false

/-- `enc_ok`: 1 when `size <= MAX_PAYLOAD`, else 0 (R74, R101). -/
def encOkOf (size : Nat) : Bool := decide (size ≤ Config.maxPayload)

/-- Step 7 for a body of length `i` whose checked block has the given verdict: the length test first, then the checksum
(R92, R109 b). -/
def judge (i : Nat) (verified : Bool) : RxCause :=
  if i < Config.minBody then .rejectShort
  else if verified then .deliver
  else .rejectCrc

/-- The results of an INGEST that delivers nothing: `rx_len` and `POUT` are absent (R83, U11). -/
def RxResult.nothing (c : RxCause) (dropped : Nat) : RxResult := ⟨c.valid, none, none, dropped, c⟩

/-- The results of an INGEST that delivers `p`: `rx_len = |p|` and `POUT = p` (R93). -/
def RxResult.delivered (p : List Byte) (dropped : Nat) : RxResult :=
  ⟨RxCause.deliver.valid, some p.length, some p, dropped, .deliver⟩

/-- The results of a successful ENCODE (R78). -/
def EncResult.ok (tx : List Byte) : EncResult := ⟨true, some tx⟩

/-- The results of an oversized ENCODE (R74, R102). -/
def EncResult.oversize : EncResult := ⟨false, none⟩

end Sys2Proof.Machine
end

