-- ==== Sys2Proof/WellFormed.lean ====
section
/-!
DEFINITION. Which terms of `Instr` are operations the spec gives a meaning to.
-/

namespace Sys2Proof

/-- The number of cells of a buffer (R28). -/
def Buffer.cap : Buffer → Nat
  | .rbuf => Config.rbufCap
  | .wbuf => Config.wbufCap

/-- The three checks: the reserved code is "not an element of the operation type" (R60); the two cells `CRC_APPEND` writes "must
exist" (R69); the chunk lengths of `FEED` cut all of `w` (R63). Every payload length and every chunk length is legal
(R58, R59: an oversized ENCODE is an operation that fails, not an ill-formed one). -/
def WellFormed : Instr → Bool
  | .reset => true
  | .encode _ => true
  | .ingest _ => true
  | .reserved => false
  | .crcPartial _ _ => true
  | .crcOf _ => true
  | .crcAppend b a n => decide (a + n + 1 < b.cap)
  | .crcVerify _ => true
  | .decode _ => true
  | .feed w lens => decide (lens.sum = w.length)
  | .poll => true

/-- The operations the host can issue: those with a command code (R6, R61). -/
def HostOperation : Instr → Bool
  | .reset => true
  | .encode _ => true
  | .ingest _ => true
  | .reserved => false
  | .crcPartial _ _ => false
  | .crcOf _ => false
  | .crcAppend _ _ _ => false
  | .crcVerify _ => false
  | .decode _ => false
  | .feed _ _ => false
  | .poll => false

end Sys2Proof
end

