-- ==== Sys2Proof/Decode.lean ====
section
/-!
DEFINITION. The decoder, total on command records, and the encoder. Codes: 30_encoding.md R57 to R60 (`00` RESET, `01` ENCODE,
`10` INGEST, `11` reserved); the internal primitives have no code and the pseudo-operations are abbreviations (R61, R63).
-/

namespace Sys2Proof

/-- The operation a command record names (R57, R58, R59), or by name why it names none (R60). -/
def decode (c : Command) : Except DecodeError Instr :=
  if c.op = 0b00#2 then
    if c.length = 0 ∧ c.data = [] then .ok .reset else .error .operandOnReset
  else if c.op = 0b01#2 then
    if c.data.length = c.length then .ok (.encode c.data) else .error .operandLength
  else if c.op = 0b10#2 then
    if c.data.length = c.length then .ok (.ingest c.data) else .error .operandLength
  else .error .reservedCode

/-- Decode a sequence of commands in order, stopping at the first that names no operation. -/
def decodeAll : List Command → Except DecodeError (List Instr)
  | [] => .ok []
  | c :: cs =>
    match decode c with
    | .error e => .error e
    | .ok i =>
      match decodeAll cs with
      | .error e => .error e
      | .ok is => .ok (i :: is)

/-- The command that issues `RESET` (R57). -/
def resetCommand : Command := ⟨0b00#2, 0, []⟩

/-- The command that issues `ENCODE(|pin|, pin)` (R58). -/
def encodeCommand (pin : List Byte) : Command := ⟨0b01#2, pin.length, pin⟩

/-- The command that issues `INGEST(|rxin|, rxin)` (R59). -/
def ingestCommand (rxin : List Byte) : Command := ⟨0b10#2, rxin.length, rxin⟩

/-- The consecutive chunks of `w` of the given lengths (R63). A chunk that would run past the end of `w` is cut there; that happens
only in a `FEED` that is not well formed (log entry 11). -/
def chunks : List Byte → List Nat → List (List Byte)
  | _, [] => []
  | w, c :: cs => w.take c :: chunks (w.drop c) cs

/-- The host operations a term stands for: itself for a host operation, its expansion for a pseudo-operation (R63), none for an
internal primitive ("the host cannot invoke" it, R6) or for the reserved code (R60). -/
def expansion : Instr → List Instr
  | .reset => [.reset]
  | .encode pin => [.encode pin]
  | .ingest rxin => [.ingest rxin]
  | .reserved => []
  | .crcPartial _ _ => []
  | .crcOf _ => []
  | .crcAppend _ _ _ => []
  | .crcVerify _ => []
  | .decode w => [.reset, .ingest w]
  | .feed w lens => (chunks w lens).map .ingest
  | .poll => [.ingest []]

/-- The commands by which the host issues an operation (R57, R58, R59, R63); none for what it cannot issue (R60, R61). -/
def encode : Instr → List Command
  | .reset => [resetCommand]
  | .encode pin => [encodeCommand pin]
  | .ingest rxin => [ingestCommand rxin]
  | .reserved => []
  | .crcPartial _ _ => []
  | .crcOf _ => []
  | .crcAppend _ _ _ => []
  | .crcVerify _ => []
  | .decode w => [resetCommand, ingestCommand w]
  | .feed w lens => (chunks w lens).map ingestCommand
  | .poll => [ingestCommand []]

/-- A word of the opcode table as a command record: `op` is bits [1:0], and every operand field is zero (length 0, empty byte
string). A table row with fewer than two bits has no code (R61) and gives no command (log entry 7). -/
def tableCommand (nbits w : Nat) : Option Command :=
  if nbits < 2 then none else some ⟨BitVec.ofNat 2 w, 0, []⟩

/-- The operation the decoder reads from a word of the opcode table; `none` where it refuses. -/
def decodeTableWord (nbits w : Nat) : Option Instr :=
  match tableCommand nbits w with
  | none => none
  | some c =>
    match decode c with
    | .error _ => none
    | .ok i => some i

end Sys2Proof
end

