-- ==== Sys2Proof/Machine/Operands.lean ====
section
/-!
DEFINITION. Every operand form the operations have: a byte string and its length (R58, R59), a `u16` (R67), a named buffer with a
start offset and a length (R69), and a byte string with chunk lengths (R63, `chunks` in Decode.lean).
-/

namespace Sys2Proof.Machine

/-- The cells of a named buffer (R28). -/
def State.buffer (s : State) : Buffer → Memory
  | .rbuf => s.rbuf
  | .wbuf => s.wbuf

/-- Put back the cells of a named buffer. -/
def State.setBuffer (s : State) (b : Buffer) (m : Memory) : State :=
  match b with
  | .rbuf => { s with rbuf := m }
  | .wbuf => { s with wbuf := m }

/-- Whether `CRC_APPEND(B, a, n)` names cells that exist: `B[a+n]` and `B[a+n+1]` (R69). -/
def appendFits (b : Buffer) (a n : Nat) : Bool := decide (a + n + 1 < b.cap)

/-- `size`, the length operand of ENCODE (R58, R73). -/
def sizeOperand (pin : List Byte) : Nat := pin.length

end Sys2Proof.Machine
end

