-- ==== Sys2Proof/Machine/Checksum.lean ====
section
/-!
DEFINITION. The checksum primitive (40_checksum.md) and the meanings of its four forms. The host cannot invoke them (R6, R61): no
command decodes to one, and ENCODE and INGEST call the shared functions below (log entry 9).
-/

namespace Sys2Proof.Machine

/-- One shift of the CRC register (R64): left by one, and the polynomial in when bit 15 falls out. -/
def crcShift (r : Word) : Word :=
  if r.getLsbD 15 then (r <<< 1) ^^^ Config.crcPoly else r <<< 1

/-- `n` shifts. -/
def crcShifts : Nat → Word → Word
  | 0, r => r
  | n + 1, r => crcShifts n (crcShift r)

/-- `crc_byte(r, b)` (R64): the byte meets the top 8 bits of the register, most significant bit first (R32, R66). -/
def crcByte (r : Word) (b : Byte) : Word := crcShifts 8 (r ^^^ (b.setWidth 16 <<< 8))

/-- `CRC_PARTIAL(prior, bytes)` (R67). -/
def crcPartial : Word → List Byte → Word
  | r, [] => r
  | r, b :: bs => crcPartial (crcByte r b) bs

/-- `CRC_OF(bytes) = CRC_PARTIAL(CRC_INIT, bytes)` (R68); no final XOR and no reflection (R66). -/
def crcOf (init : Word) (bytes : List Byte) : Word := crcPartial init bytes

/-- `CRC_APPEND(B, a, n)` (R69): the value returned and the buffer with its high byte at `a+n` and its low byte at `a+n+1`. -/
def crcAppend (init : Word) (m : Memory) (a n : Nat) : Word × Memory :=
  let c := crcOf init (Memory.slice m a n)
  (c, Memory.write (Memory.write m (a + n) (hi8 c)) (a + n + 1) (lo8 c))

/-- `CRC_VERIFY(bytes) = (CRC_OF(bytes) = 0)` (R70). -/
def crcVerify (init : Word) (bytes : List Byte) : Bool := decide (crcOf init bytes = 0)

/-- CRC_PARTIAL (R67). -/
def execCrcPartial (prior : Word) (bytes : List Byte) (s : State) : Host.Outcome State Fault Refusal :=
  .next (s.returns [.crc (crcPartial prior bytes)])

/-- CRC_OF (R68). -/
def execCrcOf (bytes : List Byte) (s : State) : Host.Outcome State Fault Refusal :=
  .next (s.returns [.crc (crcOf s.cfg.crcInit bytes)])

/-- CRC_APPEND (R69). Cells that do not exist: fault `appendBounds` (log entry 10). -/
def execCrcAppend (b : Buffer) (a n : Nat) (s : State) : Host.Outcome State Fault Refusal :=
  if appendFits b a n then
    let r := crcAppend s.cfg.crcInit (s.buffer b) a n
    .next ((s.setBuffer b r.2).returns [.crc r.1])
  else .fault .appendBounds

/-- CRC_VERIFY (R70). -/
def execCrcVerify (bytes : List Byte) (s : State) : Host.Outcome State Fault Refusal :=
  .next (s.returns [.check (crcVerify s.cfg.crcInit bytes)])

end Sys2Proof.Machine
end

