-- ==== Sys2Proof/Machine/Encoder.lean ====
section
/-!
DEFINITION. The frame encoder (41_encoder.md): ENCODE in the step order of R79. Its registers `size`, `crc`, `j` and `last` (R17) are
local to one operation.
-/

namespace Sys2Proof.Machine

/-- Build (R75): copy the payload to offset 1, append the checksum of the raw payload (`CRC_APPEND(WBUF, 1, size)`), write the
delimiter at `size + 3`. Offset 0 is not yet written. -/
def buildFrame (init : Word) (wbuf : Memory) (pin : List Byte) : Memory :=
  let size := sizeOperand pin
  Memory.write (crcAppend init (Memory.writeBytes wbuf 1 pin) 1 size).2 (size + 3) Config.delim

/-- The transform scan (R76) over `n` offsets from `j` up: every occurrence links the previous chain cell to itself. The pair
is the buffer and `last`. -/
def scanLinks : Nat → Nat → Nat → Memory → Memory × Nat
  | 0, _, last, m => (m, last)
  | n + 1, j, last, m =>
    if Memory.read m j = Config.delim then scanLinks n (j + 1) j (Memory.write m last (BitVec.ofNat 8 j))
    else scanLinks n (j + 1) last m

/-- The transform (R76, R77): scan offsets `1..size+2` from `last = 0`, then write the sentinel `size + 3` into the cell at
`last`. -/
def transform (size : Nat) (m : Memory) : Memory :=
  let r := scanLinks (size + 2) 1 0 m
  Memory.write r.1 r.2 (BitVec.ofNat 8 (size + 3))

/-- The contents of `WBUF` after a successful ENCODE (R79). -/
def frameBuffer (init : Word) (wbuf : Memory) (pin : List Byte) : Memory :=
  transform (sizeOperand pin) (buildFrame init wbuf pin)

/-- ENCODE in full (R79): the size check (R74), the frame, `RLEN <- 0` (R78), and `TX = WBUF[0..size+4)` to the host. -/
def encodeOp (pin : List Byte) (s : State) : Host.Outcome State Fault Refusal :=
  if encOkOf (sizeOperand pin) then
    let m := frameBuffer s.cfg.crcInit s.wbuf pin
    .next (({ s with wbuf := m }.emptyRx).returns [.enc (.ok (Memory.slice m 0 (sizeOperand pin + 4)))])
  else .next (s.returns [.enc .oversize])

/-- ENCODE (R79). -/
def execEncode (pin : List Byte) (s : State) : Host.Outcome State Fault Refusal := encodeOp pin s

end Sys2Proof.Machine
end

