-- ==== Sys2Proof/Machine/Reassembler.lean ====
section
/-!
DEFINITION. The frame reassembler (42_reassembler.md): INGEST in the step order of R94, and RESET (R99). The registers `s`, `i`,
`cursor`, `next` and `dropped` (R18) are local to one operation.
-/

namespace Sys2Proof.Machine

/-- Step 1, append (R84): a byte is kept while `RLEN < 254`, and counted as dropped otherwise. -/
def rxAppend : RxWork → List Byte → RxWork
  | w, [] => w
  | w, b :: bs =>
    if w.rlen.toNat < Config.rbufCap then
      rxAppend { w with rbuf := Memory.write w.rbuf w.rlen.toNat b, rlen := w.rlen + 1 } bs
    else rxAppend { w with dropped := w.dropped + 1 } bs

/-- The number of delimiters in a row among the `n` cells from offset `k` up (R86: `while s < RLEN and RBUF[s] = 0xFF`). -/
def leadRun (m : Memory) : Nat → Nat → Nat
  | 0, _ => 0
  | n + 1, k => if Memory.read m k = Config.delim then leadRun m n (k + 1) + 1 else 0

/-- `RBUF[t] <- RBUF[t+s]` for `n` offsets from `t` up, in ascending order (R86). -/
def shiftDown (s : Nat) : Nat → Nat → Memory → Memory
  | 0, _, m => m
  | n + 1, t, m => shiftDown s n (t + 1) (Memory.write m t (Memory.read m (t + s)))

/-- Step 3, strip (R86): remove the leading delimiters and lower `RLEN` by their number. -/
def rxStrip (w : RxWork) : RxWork :=
  let s := leadRun w.rbuf w.rlen.toNat 0
  { w with rbuf := shiftDown s (w.rlen.toNat - s) 0 w.rbuf, rlen := w.rlen - BitVec.ofNat 8 s }

/-- The first offset of the `n` cells from offset `k` up that holds a delimiter. -/
def firstDelim (m : Memory) : Nat → Nat → Option Nat
  | 0, _ => none
  | n + 1, k => if Memory.read m k = Config.delim then some k else firstDelim m n (k + 1)

/-- Step 4, the delimiter scan over the valid bytes (R87). -/
def rxFind (w : RxWork) : Option Nat := firstDelim w.rbuf w.rlen.toNat 0

/-- Step 6, the chain walk (R89): while `cursor < i`, read `next`, write the delimiter, go on to `next`. The first argument bounds
the number of steps; `i + 1` is enough on every buffer (R91). -/
def rxWalk (i : Nat) : Nat → Memory → Byte → Memory
  | 0, m, _ => m
  | n + 1, m, cursor =>
    if cursor.toNat < i then
      rxWalk i n (Memory.write m cursor.toNat Config.delim) (Memory.read m cursor.toNat)
    else m

/-- The unescaper (R89): walk the chain from the head, `RBUF[0]`. -/
def restore (i : Nat) (m : Memory) : Memory := rxWalk i (i + 1) m (Memory.read m 0)

/-- The end of an INGEST: the working registers become the persistent state, and the results are returned. -/
def State.finishRx (s : State) (w : RxWork) (r : RxResult) : State :=
  { s with rbuf := w.rbuf, rlen := w.rlen }.returns [.rx r]

/-- Steps 5 to 8 for a delimiter at offset `i` (R88 to R93): restore, judge, deliver or discard, `RLEN <- 0`. -/
def rxJudge (s : State) (w : RxWork) (i : Nat) : State :=
  let m := restore i w.rbuf
  let done : RxWork := { w with rbuf := m, rlen := 0 }
  match judge i (crcVerify s.cfg.crcInit (Memory.slice m 1 (i - 1))) with
  | .deliver => s.finishRx done (.delivered (Memory.slice m 1 (i - 3)) w.dropped)
  | c => s.finishRx done (.nothing c w.dropped)

/-- Steps 3 to 8 (R86 to R93). -/
def rxScan (s : State) (w : RxWork) : State :=
  match rxFind w with
  | none => s.finishRx w (.nothing .noFrame w.dropped)
  | some i => rxJudge s w i

/-- INGEST in full (R94). In a state with `RLEN = 255`, which never occurs (R24), the strip would read a cell that does not exist:
fault `rbufBounds` (log entry 6). -/
def ingestOp (rxin : List Byte) (s : State) : Host.Outcome State Fault Refusal :=
  if Config.rbufCap < s.rlen.toNat then .fault .rbufBounds
  else
    let w := rxAppend ⟨s.rbuf, s.rlen, 0⟩ rxin
    if w.rlen = 0 then .next (s.finishRx w (.nothing .noFrame w.dropped))
    else .next (rxScan s (rxStrip w))

/-- RESET in full (R99): `RLEN <- 0`, no results, no cell cleared. -/
def resetOp (s : State) : Host.Outcome State Fault Refusal := .next (s.emptyRx.returns [])

/-- INGEST (R94). -/
def execIngest (rxin : List Byte) (s : State) : Host.Outcome State Fault Refusal := ingestOp rxin s

/-- RESET (R99). -/
def execReset (s : State) : Host.Outcome State Fault Refusal := resetOp s

end Sys2Proof.Machine
end

