-- ==== Sys2Proof/Machine/Pseudo.lean ====
section
/-!
DEFINITION. The rows of the table that are no host operation of their own: the reserved code (30_encoding.md R60) and the
pseudo-operations, each the composition of the operations it abbreviates (R63).
-/

namespace Sys2Proof.Machine

/-- INGEST of each chunk in turn; the results are those of every INGEST, in order, after the results `rs` so far. -/
def feedChunks : List (List Byte) → List OpResult → State → Host.Outcome State Fault Refusal
  | [], rs, s => .next (s.returns rs)
  | c :: cs, rs, s => andThen (ingestOp c s) (fun t => feedChunks cs (rs ++ t.results) t)

/-- The reserved code 11 (R60): "a model refuses it". -/
def execReserved (_s : State) : Host.Outcome State Fault Refusal := .refused .reservedCode

/-- DECODE (R63): RESET followed by INGEST. -/
def execDecode (w : List Byte) (s : State) : Host.Outcome State Fault Refusal :=
  andThen (resetOp s) (ingestOp w)

/-- FEED (R63): INGEST of the consecutive chunks of `w`. -/
def execFeed (w : List Byte) (lens : List Nat) (s : State) : Host.Outcome State Fault Refusal :=
  feedChunks (chunks w lens) [] s

/-- POLL (R63): INGEST with `k = 0`. -/
def execPoll (s : State) : Host.Outcome State Fault Refusal := ingestOp [] s

end Sys2Proof.Machine
end

