-- ==== Sys2Proof/Machine/Dispatch.lean ====
section
/-!
DEFINITION. One arm per constructor of `Instr`, each one call of that instruction's meaning.
-/

namespace Sys2Proof.Machine

/-- The meaning of an operation in a state. -/
def exec (i : Instr) (s : State) : Host.Outcome State Fault Refusal :=
  match i with
  | .reset => Sys2Proof.Machine.execReset s
  | .encode pin => Sys2Proof.Machine.execEncode pin s
  | .ingest rxin => Sys2Proof.Machine.execIngest rxin s
  | .reserved => Sys2Proof.Machine.execReserved s
  | .crcPartial prior bytes => Sys2Proof.Machine.execCrcPartial prior bytes s
  | .crcOf bytes => Sys2Proof.Machine.execCrcOf bytes s
  | .crcAppend b a n => Sys2Proof.Machine.execCrcAppend b a n s
  | .crcVerify bytes => Sys2Proof.Machine.execCrcVerify bytes s
  | .decode w => Sys2Proof.Machine.execDecode w s
  | .feed w lens => Sys2Proof.Machine.execFeed w lens s
  | .poll => Sys2Proof.Machine.execPoll s

end Sys2Proof.Machine
end

