-- ==== Sys2Proof/Machine/Fetch.lean ====
section
/-!
DEFINITION. Taking the next command the host has issued. The framer has no program counter and fetches no instruction (10_state.md
R19, 20_memory.md R43); what orders its operations is the order in which the host issues them (R40), held in `State.cmds`.
-/

namespace Sys2Proof.Machine

/-- The oldest command not yet performed, and the state without it. -/
def takeCommand (s : State) : Option (Command × State) :=
  match s.cmds with
  | [] => none
  | c :: rest => some (c, { s with cmds := rest })

/-- The refusal of a command that names no operation. -/
def refusalOf : DecodeError → Refusal
  | .reservedCode => .reservedCode
  | .operandLength => .operandLength
  | .operandOnReset => .operandOnReset

/-- Issue a command so that it is the next one performed. -/
def issueFirst (s : State) (c : Command) : State := { s with cmds := c :: s.cmds }

end Sys2Proof.Machine
end

