-- ==== Sys2Proof/Machine/Step.lean ====
section
/-!
DEFINITION. One step: the next operation the host has issued, performed whole (20_memory.md R40: each operation is atomic). With
nothing issued the framer does nothing ("between operations the host decides what comes next", 10_state.md R19).
-/

namespace Sys2Proof.Machine

/-- One step of the framer (log entry 1). -/
def step (s : State) : Host.Outcome State Fault Refusal :=
  match takeCommand s with
  | none => .next s
  | some (c, t) =>
    match decode c with
    | .error e => .refused (refusalOf e)
    | .ok i => exec i t

/-- `s` with the command of a table word issued so that the very next step performs it (log entries 1 and 7). A word of fewer than
two bits has no code and issues nothing. -/
def State.withFetchWord (s : State) (nbits w : Nat) : State :=
  match tableCommand nbits w with
  | none => s
  | some c => issueFirst s c

end Sys2Proof.Machine
end

