-- ==== Sys2Proof/Safety.lean ====
section
/-!
DEFINITION. The terms claims are made in: the spec's own second forms of its operations (the closed form of a frame, 30_encoding.md
R48; INGEST as a function on sequences, 42_reassembler.md R95), the invariants of 10_state.md R24 and R25, the wedge, and
what it means that two states cannot be told apart.
-/

namespace Sys2Proof.Spec

open Sys2Proof.Machine

/-! ### Sequences (00_scope.md R10) -/

/-- `lead(s, 0xFF)`: the length of the run of delimiters at the front. -/
def lead : List Byte → Nat
  | [] => 0
  | b :: bs => if b = Config.delim then lead bs + 1 else 0

/-- `first(s, 0xFF)`: the smallest offset that holds a delimiter. -/
def first : List Byte → Option Nat
  | [] => none
  | b :: bs => if b = Config.delim then some 0 else (first bs).map (· + 1)

/-- The number of delimiters in a sequence: `m` of R48 when the sequence is an untransformed body. -/
def occurrences (u : List Byte) : Nat := u.countP (· == Config.delim)

/-! ### The frame in closed form (R44, R48) -/

/-- The untransformed body from offset 1 on (R48): the payload and the two checksum bytes, high byte first. -/
def body (init : Word) (p : List Byte) : List Byte := p ++ [hi8 (crcOf init p), lo8 (crcOf init p)]

/-- The first occurrence at or after offset `j`, when the cells from `j` on hold `u`; `last` when there is none. -/
def nextLink (last : Byte) : Nat → List Byte → Byte
  | _, [] => last
  | j, b :: bs => if b = Config.delim then BitVec.ofNat 8 j else nextLink last (j + 1) bs

/-- The transformed cells from offset `j` on (R48): an occurrence holds the offset of the next one, every other cell its byte. -/
def chained (last : Byte) : Nat → List Byte → List Byte
  | _, [] => []
  | j, b :: bs => (if b = Config.delim then nextLink last (j + 1) bs else b) :: chained last (j + 1) bs

/-- The frame of payload `p` whose chain ends with the value `last` (R44, R48): head, transformed cells, delimiter. -/
def frameEndingWith (last : Byte) (init : Word) (p : List Byte) : List Byte :=
  nextLink last 1 (body init p) :: chained last 1 (body init p) ++ [Config.delim]

/-- The frame of R48: the chain ends with the sentinel `N + 3`. -/
def frame (init : Word) (p : List Byte) : List Byte := frameEndingWith (BitVec.ofNat 8 (p.length + 3)) init p

/-! ### INGEST on sequences (R95) -/

/-- `walk(b, c, i)` (R95), with a bound on the number of steps that R91 shows to be enough when it is `i + 1`. -/
def walk (i : Nat) : Nat → List Byte → Byte → List Byte
  | 0, b, _ => b
  | n + 1, b, c =>
    if c.toNat < i then walk i n (b.set c.toNat Config.delim) (b.getD c.toNat 0) else b

/-- `a1` of R95: the accumulated bytes and what fits of the chunk. -/
def appended (acc bs : List Byte) : List Byte := acc ++ bs.take (Config.rbufCap - acc.length)

/-- `a2` of R95: without the leading delimiters. -/
def stripped (acc bs : List Byte) : List Byte := (appended acc bs).drop (lead (appended acc bs))

/-- `dropped` of R95. -/
def droppedCount (acc bs : List Byte) : Nat := bs.length - min (Config.rbufCap - acc.length) bs.length

/-- `ingest(acc, bs)` (R95): the new accumulated bytes and the results. -/
def ingest (init : Word) (acc bs : List Byte) : List Byte × RxResult :=
  match first (stripped acc bs) with
  | none => (stripped acc bs, .nothing .noFrame (droppedCount acc bs))
  | some i =>
    let b := walk i (i + 1) ((stripped acc bs).take i) ((stripped acc bs).headD 0)
    if i < 3 then ([], .nothing .rejectShort (droppedCount acc bs))
    else if crcOf init (b.drop 1) ≠ 0 then ([], .nothing .rejectCrc (droppedCount acc bs))
    else ([], .delivered ((b.drop 1).take (i - 3)) (droppedCount acc bs))

/-- INGEST of each chunk in turn (R63 `FEED`): the new accumulated bytes and the results in order. -/
def feed (init : Word) : List Byte → List (List Byte) → List Byte × List OpResult
  | acc, [] => (acc, [])
  | acc, c :: cs =>
    let r := ingest init acc c
    let q := feed init r.1 cs
    (q.1, .rx r.2 :: q.2)

/-- The number of steps the chain walk makes (R89, R91), counted up to the bound `n`. -/
def walkSteps (i : Nat) : Nat → Memory → Byte → Nat
  | 0, _, _ => 0
  | n + 1, m, c =>
    if c.toNat < i then walkSteps i n (Memory.write m c.toNat Config.delim) (Memory.read m c.toNat) + 1
    else 0

/-! ### Invariants -/

/-- I-LEN (R24): `RLEN <= 254`. -/
abbrev LenLegal (s : State) : Prop := s.rlen.toNat ≤ Config.rbufCap

/-- I-NOFF (R25): no byte of `RBUF[0..RLEN)` is the delimiter. -/
abbrev NoDelimiter (s : State) : Prop := ∀ b ∈ s.acc, b ≠ Config.delim

/-- Both buffers are in the canonical form of the model's memory and list only cells that exist (R28). -/
abbrev BuffersCanonical (s : State) : Prop :=
  s.rbuf.wf ∧ s.rbuf.within Config.rbufCap ∧ s.wbuf.wf ∧ s.wbuf.within Config.wbufCap

/-- The wedge (R12): `RLEN = RBUF_CAP` with no delimiter in `RBUF`. -/
abbrev Wedged (s : State) : Prop := s.rlen.toNat = Config.rbufCap ∧ NoDelimiter s

/-! ### Runs and observation -/

/-- `n` steps of the framer, stopping at the first that is no next state. -/
def runSteps : Nat → State → Host.Outcome State Fault Refusal
  | 0, s => .next s
  | n + 1, s => andThen (step s) (runSteps n)

/-- Perform operations in order, each from the state the one before leaves (R40: "the fold of the operations' transition
functions over the trace"). -/
def performAll : List Instr → State → Host.Outcome State Fault Refusal
  | [], s => .next s
  | i :: is, s => andThen (exec i s) (performAll is)

/-- Two states that hold the same observable content (R16): the same `acc` and length, the same parameter and the same commands
issued. They may differ in every cell of RBUF at or beyond `RLEN`, in all of WBUF and in the outputs of earlier operations. -/
def SameContent (s t : State) : Prop := s.rlen = t.rlen ∧ s.acc = t.acc ∧ s.cfg = t.cfg ∧ s.cmds = t.cmds

/-- Two outcomes the host cannot tell apart: both go on with the same outputs and the same observable content, or both stop for
the same reason. -/
def SameOutcome : Host.Outcome State Fault Refusal → Host.Outcome State Fault Refusal → Prop
  | .next s, .next t => SameContent s t ∧ s.results = t.results
  | .fault f, .fault g => f = g
  | .refused q, .refused r => q = r
  | .next _, .fault _ => False
  | .next _, .refused _ => False
  | .fault _, .next _ => False
  | .fault _, .refused _ => False
  | .refused _, .next _ => False
  | .refused _, .fault _ => False

end Sys2Proof.Spec
end

