-- ==== Sys2Proof/Certificates/Slice0/Obligations.lean ====
section
/-!
DEFINITION. The statements for the provers. Each docstring names the rule or the section of spec/ it formalises; where a clause is
the model's own choice it names the log entry. Every statement is about every value of `CRC_INIT` (40_checksum.md R65). Where the
spec marks a rule as its own (`derived`, `decision`, `from general knowledge`), the docstring says so or names the decision, and
OBLIGATIONS.json lists the statement as derived.
-/

open Sys2Proof Sys2Proof.Machine Sys2Proof.Spec

/-! ### Codes, decoding, stepping -/

/-- 30_encoding.md section 4: the codes `00` RESET, `01` ENCODE, `10` INGEST, `11` reserved, on table words and on two commands
with operands. (The command record and the operand fields of a table word are the model's, log entry 7.) -/
def Obligations.TableWordsDecode : Prop :=
  decodeTableWord 8 0 = some .reset ∧ decodeTableWord 8 1 = some (.encode []) ∧
  decodeTableWord 8 2 = some (.ingest []) ∧ decodeTableWord 8 3 = none ∧
  decode ⟨0b01#2, 2, [0xFF#8, 0xFF#8]⟩ = .ok (.encode [0xFF#8, 0xFF#8]) ∧
  decode ⟨0b10#2, 4, [0x01#8, 0x02#8, 0x03#8, 0xFF#8]⟩ = .ok (.ingest [0x01#8, 0x02#8, 0x03#8, 0xFF#8])

/-- R60 (codes: the spec's decision D2): code `11` names no operation, whatever the operands; the decoder says so, and the model
refuses it. -/
def Obligations.ReservedCodeIsRefused : Prop :=
  ∀ (n : Nat) (d : List Byte) (rest : List Command) (s : State),
    decode ⟨0b11#2, n, d⟩ = .error .reservedCode ∧
    step { s with cmds := ⟨0b11#2, n, d⟩ :: rest } = .refused .reservedCode ∧
    exec .reserved s = .refused .reservedCode ∧ WellFormed .reserved = false

/-- 30_encoding.md sections 4 and 5: the commands of any operation decode to the host operations it stands for, and a host
operation is one command that decodes to itself, with every operand at every value. -/
def Obligations.CommandsDecodeToTheirOperations : Prop :=
  ∀ i : Instr, decodeAll (encode i) = .ok (expansion i) ∧
    (HostOperation i = true → ∃ c, encode i = [c] ∧ decode c = .ok i)

/-- 30_encoding.md section 4: what a command decodes to is a well-formed host operation, and that command is its only encoding. That
it is the only one is the model's choice (log entry 7): a command with a wrong length and a RESET command with operands are refused. -/
def Obligations.DecodedCommandIsItsEncoding : Prop :=
  ∀ (c : Command) (i : Instr), decode c = .ok i →
    HostOperation i = true ∧ WellFormed i = true ∧ encode i = [c]

/-- A step performs the oldest command issued, as `exec` of the operation it decodes to, on the state without that command. The
list of issued commands, the idle step and the refusal of a malformed command are the model's (log entries 1 and 7). -/
def Obligations.StepPerformsTheNextCommand : Prop :=
  (∀ (s : State) (c : Command) (rest : List Command) (i : Instr), s.cmds = c :: rest → decode c = .ok i →
    step s = exec i { s with cmds := rest }) ∧
  (∀ (s : State) (c : Command) (rest : List Command) (e : DecodeError), s.cmds = c :: rest → decode c = .error e →
    ∃ r, step s = .refused r) ∧
  (∀ s : State, s.cmds = [] → step s = .next s)

/-- 20_memory.md section 5 (R40): the run of a list of issued operations is the fold of the operations' transition functions over
it. -/
def Obligations.TraceIsFoldOfOperations : Prop :=
  ∀ (is : List Instr) (s : State), (∀ i ∈ is, HostOperation i = true) →
    runSteps is.length { s with cmds := is.flatMap encode } = performAll is { s with cmds := [] }

/-- 60_exceptions.md section 1, 70_reset_and_hazards.md section 4 (R100, R134): from a legal `RLEN` every operation the host has
issued runs to its end, and no step faults. -/
def Obligations.EveryIssuedOperationCompletes : Prop :=
  ∀ s : State, LenLegal s →
    (∀ c rest i, s.cmds = c :: rest → decode c = .ok i → ∃ t, step s = .next t) ∧ (∀ f, step s ≠ .fault f)

/-- The stops of the model outside the spec's states and operands (log entries 6, 7 and 10): a receive operation with `RLEN =
255`, CRC_APPEND on cells that do not exist, a command whose length is wrong, a RESET command with operands. -/
def Obligations.StopsOutsideTheSpec : Prop :=
  (∀ (s : State) (bs : List Byte), 254 < s.rlen.toNat →
    exec (.ingest bs) s = .fault .rbufBounds ∧ exec .poll s = .fault .rbufBounds) ∧
  (∀ (s : State) (w : List Byte) (n : Nat) (lens : List Nat), 254 < s.rlen.toNat →
    exec (.feed w (n :: lens)) s = .fault .rbufBounds) ∧
  (∀ (s : State) (b : Buffer) (a n : Nat), b.cap ≤ a + n + 1 → exec (.crcAppend b a n) s = .fault .appendBounds) ∧
  (∀ (s : State) (n : Nat) (d : List Byte), d.length ≠ n →
    step (issueFirst s ⟨0b01#2, n, d⟩) = .refused .operandLength ∧
    step (issueFirst s ⟨0b10#2, n, d⟩) = .refused .operandLength) ∧
  (∀ (s : State) (n : Nat) (d : List Byte), n ≠ 0 ∨ d ≠ [] → step (issueFirst s ⟨0b00#2, n, d⟩) = .refused .operandOnReset)

/-! ### Reset and invariants -/

/-- 70_reset_and_hazards.md section 1 (R119), 10_state.md section 5: after reset `RLEN = 0`, nothing is accumulated and no output
is pending. -/
def Obligations.ResetStateIsEmpty : Prop :=
  State.reset.rlen = 0 ∧ State.reset.acc = [] ∧ State.reset.results = []

/-- The state after reset meets the three invariants. -/
def Obligations.ResetStateMeetsInvariants : Prop :=
  LenLegal State.reset ∧ NoDelimiter State.reset ∧ BuffersCanonical State.reset

/-- R24, I-LEN: `RLEN <= 254` after reset and after every operation. -/
def Obligations.StepKeepsLengthLegal : Prop :=
  LenLegal State.reset ∧ ∀ s t : State, LenLegal s → step s = .next t → LenLegal t

/-- R25 (derived in the spec), I-NOFF: no byte of `RBUF[0..RLEN)` is `0xFF` after reset and after every operation. The two
consequences of the rule: the strip removes bytes only when `RLEN` was 0, and a delimiter the scan finds is not among the bytes
accumulated before. -/
def Obligations.StepKeepsNoDelimiter : Prop :=
  NoDelimiter State.reset ∧
  (∀ s t : State, LenLegal s → NoDelimiter s → step s = .next t → NoDelimiter t) ∧
  (∀ (s : State) (bs : List Byte), LenLegal s → NoDelimiter s →
    (leadRun (rxAppend ⟨s.rbuf, s.rlen, 0⟩ bs).rbuf (rxAppend ⟨s.rbuf, s.rlen, 0⟩ bs).rlen.toNat 0 ≠ 0 → s.rlen = 0) ∧
    (∀ i, rxFind (rxStrip (rxAppend ⟨s.rbuf, s.rlen, 0⟩ bs)) = some i → s.rlen.toNat ≤ i))

/-- Every step keeps both buffers in the model's canonical form and inside their 254 and 255 cells (20_memory.md sections 1 and 3;
the form is the model's, log entry 4). -/
def Obligations.StepKeepsBuffersCanonical : Prop :=
  ∀ s t : State, BuffersCanonical s → step s = .next t → BuffersCanonical t

/-- 10_state.md sections 1 and 3 (R16, R20, R23): what an operation answers and the observable content it leaves depend on nothing
but the observable content before it: not on cells of RBUF at or beyond `RLEN`, not on WBUF, not on earlier outputs. The one
operation left out, CRC_APPEND, names a buffer as its operand. -/
def Obligations.OutcomeIgnoresStaleCells : Prop :=
  ∀ (i : Instr) (s t : State), (∀ b a n, i ≠ .crcAppend b a n) → SameContent s t → SameOutcome (exec i s) (exec i t)

/-- 42_reassembler.md section 5 (R99): RESET sets `RLEN` to 0, returns nothing, and changes nothing else; a second RESET changes
nothing. -/
def Obligations.ResetEmptiesTheAccumulator : Prop :=
  ∀ s : State, exec .reset s = .next { s with rlen := 0, results := [] } ∧
    exec .reset { s with rlen := 0, results := [] } = .next { s with rlen := 0, results := [] }

/-! ### ENCODE -/

/-- R74 (the spec's decision D8): with `size > 251` ENCODE fails, emits nothing and changes no state. -/
def Obligations.OversizeEncodeFails : Prop :=
  ∀ (s : State) (p : List Byte), 251 < p.length →
    exec (.encode p) s = .next { s with results := [.enc ⟨false, none⟩] }

/-- R80 (derived in the spec): the postconditions (a) to (f) of a successful ENCODE, for every payload of length 0..251. -/
def Obligations.EncodePostconditions : Prop :=
  ∀ (s : State) (p : List Byte), p.length ≤ 251 →
    ∃ t tx, exec (.encode p) s = .next t ∧ t.results = [.enc ⟨true, some tx⟩] ∧
      tx.length = p.length + 4 ∧ tx[p.length + 3]? = some 0xFF#8 ∧
      (∀ b ∈ tx.take (p.length + 3), b ≠ 0xFF#8) ∧
      (∃ h, tx[0]? = some h ∧ 1 ≤ h.toNat ∧ h.toNat ≤ p.length + 3) ∧
      (∀ (j : Nat) (b : Byte), p[j]? = some b → b ≠ 0xFF#8 → tx[j + 1]? = some b) ∧
      t.rlen = 0

/-- R81 (derived in the spec): the loop of R79 emits the frame of R48 in closed form. -/
def Obligations.EncodeEqualsClosedForm : Prop :=
  ∀ (s : State) (p : List Byte), p.length ≤ 251 →
    ∃ t, exec (.encode p) s = .next t ∧ t.results = [.enc ⟨true, some (frame s.cfg.crcInit p)⟩]

/-- R48, R49 (the value that ends the chain is the spec's decision D3; R49 is derived there): every chain cell (the head, and each
occurrence) holds the offset of the next occurrence, or `N + 3` when there is none; so its value is above its own offset and at
most `N + 3 <= 254`; every other cell keeps its byte; a frame with no occurrence has the head `N + 3` and the untransformed body.
-/
def Obligations.ChainLinksAscend : Prop :=
  ∀ (s : State) (p : List Byte), p.length ≤ 251 →
    ∃ t tx, exec (.encode p) s = .next t ∧ t.results = [.enc ⟨true, some tx⟩] ∧
      (∀ j : Nat, j = 0 ∨ (1 ≤ j ∧ (body s.cfg.crcInit p)[j - 1]? = some 0xFF#8) →
        ∃ v, tx[j]? = some v ∧ j < v.toNat ∧ v.toNat ≤ p.length + 3 ∧ v.toNat ≤ 254 ∧
          (v.toNat < p.length + 3 → (body s.cfg.crcInit p)[v.toNat - 1]? = some 0xFF#8) ∧
          (∀ k : Nat, j < k → k < v.toNat → (body s.cfg.crcInit p)[k - 1]? ≠ some 0xFF#8)) ∧
      (∀ (j : Nat) (b : Byte), (body s.cfg.crcInit p)[j]? = some b → b ≠ 0xFF#8 → tx[j + 1]? = some b) ∧
      ((∀ b ∈ body s.cfg.crcInit p, b ≠ 0xFF#8) →
        tx = BitVec.ofNat 8 (p.length + 3) :: body s.cfg.crcInit p ++ [0xFF#8])

/-- 41_encoder.md section 3, 20_memory.md sections 1 and 4: what a successful ENCODE changes. `RLEN` becomes 0; WBUF holds `TX` in
cells `0..size+3` and is unchanged beyond; no cell of RBUF, not the parameter and no issued command changes. That cells which the
spec leaves any value keep theirs is the model's choice (log entry 5). -/
def Obligations.EncodeFrame : Prop :=
  ∀ (s : State) (p : List Byte), p.length ≤ 251 →
    ∃ t tx, exec (.encode p) s = .next t ∧ t.results = [.enc ⟨true, some tx⟩] ∧ t.rlen = 0 ∧
      t.rbuf = s.rbuf ∧ t.cfg = s.cfg ∧ t.cmds = s.cmds ∧
      Memory.slice t.wbuf 0 (p.length + 4) = tx ∧
      ∀ a, p.length + 4 ≤ a → Memory.read t.wbuf a = Memory.read s.wbuf a

/-- 20_memory.md section 3 (R36): ENCODE of the same payload twice emits the same bytes twice and leaves the same receive state.
-/
def Obligations.EncodeTwiceEmitsTheSame : Prop :=
  ∀ (s t : State) (p : List Byte), exec (.encode p) s = .next t → p.length ≤ 251 →
    ∃ u, exec (.encode p) t = .next u ∧ u.results = t.results ∧ u.rlen = t.rlen ∧ u.rbuf = t.rbuf

/-! ### INGEST -/

/-- R95 (derived in the spec): INGEST is the function `ingest(acc, bs)` on sequences. -/
def Obligations.IngestEqualsSequenceForm : Prop :=
  ∀ (s : State) (bs : List Byte), LenLegal s →
    ∃ t, exec (.ingest bs) s = .next t ∧ t.acc = (Spec.ingest s.cfg.crcInit s.acc bs).1 ∧
      t.results = [.rx (Spec.ingest s.cfg.crcInit s.acc bs).2]

/-- R110: what every outcome does to `acc`. -/
def Obligations.OutcomesAndAccumulator : Prop :=
  ∀ s : State,
    (∃ t, exec .reset s = .next t ∧ t.acc = []) ∧
    (∀ p : List Byte, p.length ≤ 251 → ∃ t, exec (.encode p) s = .next t ∧ t.acc = []) ∧
    (∀ p : List Byte, 251 < p.length → ∃ t, exec (.encode p) s = .next t ∧ t.acc = s.acc) ∧
    (∀ bs : List Byte, LenLegal s →
      ∃ t r, exec (.ingest bs) s = .next t ∧ t.results = [.rx r] ∧
        (r.rxCause = .noFrame → t.acc = stripped s.acc bs) ∧ (r.rxCause ≠ .noFrame → t.acc = []))

/-- R104, R105: a delimiter judged at an offset below 3 is `REJECT_SHORT`, at a higher one with a residue that is not zero after
the walk `REJECT_CRC`; either empties the buffer and delivers nothing. With them the order of 60_exceptions.md section 4 (R109):
no delimiter, short body, checksum residue; only the first delimiter, at an offset 1..253, is judged; the count of dropped bytes
is returned in every case. (`MIN_BODY = 3` is the spec's decision D4.) -/
def Obligations.OutcomesDecidedInOrder : Prop :=
  ∀ (s : State) (bs : List Byte), LenLegal s →
    ∃ t r, exec (.ingest bs) s = .next t ∧ t.results = [.rx r] ∧ r.rxDropped = droppedCount s.acc bs ∧
      (first (stripped s.acc bs) = none → r.rxCause = .noFrame) ∧
      (∀ i, first (stripped s.acc bs) = some i →
        1 ≤ i ∧ i ≤ 253 ∧ t.rlen = 0 ∧
        (i < 3 → r.rxCause = .rejectShort ∧ r.pout = none) ∧
        (3 ≤ i → crcOf s.cfg.crcInit ((walk i (i + 1) ((stripped s.acc bs).take i) ((stripped s.acc bs).headD 0)).drop 1) ≠ 0 →
          r.rxCause = .rejectCrc ∧ r.pout = none) ∧
        (3 ≤ i → crcOf s.cfg.crcInit ((walk i (i + 1) ((stripped s.acc bs).take i) ((stripped s.acc bs).headD 0)).drop 1) = 0 →
          r.rxCause = .deliver))

/-- 42_reassembler.md section 1 (R83), 60_exceptions.md section 2 (R101): how the results of INGEST hang together, and the codes
of `rx_cause`. -/
def Obligations.IngestResultFields : Prop :=
  RxCause.code .noFrame = 0 ∧ RxCause.code .deliver = 1 ∧ RxCause.code .rejectShort = 2 ∧ RxCause.code .rejectCrc = 3 ∧
  ∀ (s : State) (bs : List Byte), LenLegal s →
    ∃ t r, exec (.ingest bs) s = .next t ∧ t.results = [.rx r] ∧
      (r.rxValid = true ↔ r.rxCause = .deliver) ∧
      (r.rxValid = false → r.rxLen = none ∧ r.pout = none) ∧
      (r.rxValid = true → ∃ p, r.pout = some p ∧ r.rxLen = some p.length) ∧
      r.rxDropped ≤ bs.length ∧ (0 < r.rxDropped ↔ 254 < s.rlen.toNat + bs.length)

/-- R103 (the spec's decision D7): the bytes that find no room are discarded and counted, and that is all: the outcome, the
payload and the accumulated bytes are those of the same INGEST with only the bytes that fit. -/
def Obligations.OverflowOnlyCounts : Prop :=
  ∀ (s : State) (bs : List Byte), LenLegal s →
    ∃ t u r, exec (.ingest bs) s = .next t ∧ exec (.ingest (bs.take (254 - s.rlen.toNat))) s = .next u ∧
      u.results = [.rx r] ∧ r.rxDropped = 0 ∧
      t.results = [.rx { r with rxDropped := bs.length - (254 - s.rlen.toNat) }] ∧ t.acc = u.acc

/-- What the receive operations change: cells of RBUF below the end of what was appended, `RLEN`, the outputs; not a cell of RBUF
from there on, not WBUF, not the parameter, not an issued command. The operations write no cell from there on and not WBUF
(20_memory.md section 1); that such a cell, which the spec leaves any value (R16, R23, U8, U9), keeps its value is the model's choice
(log entry 5). -/
def Obligations.ReceiveFrame : Prop :=
  (∀ (s : State) (bs : List Byte), LenLegal s →
    ∃ t, exec (.ingest bs) s = .next t ∧ t.wbuf = s.wbuf ∧ t.cfg = s.cfg ∧ t.cmds = s.cmds ∧
      ∀ a, min 254 (s.rlen.toNat + bs.length) ≤ a → Memory.read t.rbuf a = Memory.read s.rbuf a) ∧
  (∀ (s : State) (w : List Byte),
    ∃ t, exec (.decode w) s = .next t ∧ t.wbuf = s.wbuf ∧ t.cfg = s.cfg ∧ t.cmds = s.cmds ∧
      ∀ a, min 254 w.length ≤ a → Memory.read t.rbuf a = Memory.read s.rbuf a) ∧
  (∀ (s : State) (w : List Byte) (lens : List Nat), LenLegal s →
    ∃ t, exec (.feed w lens) s = .next t ∧ t.wbuf = s.wbuf ∧ t.cfg = s.cfg ∧ t.cmds = s.cmds ∧
      ∀ a, min 254 (s.rlen.toNat + (chunks w lens).flatten.length) ≤ a → Memory.read t.rbuf a = Memory.read s.rbuf a)

/-- R91 (derived in the spec): the chain walk ends after at most `i + 1` steps on every buffer and from every cursor, so no larger
bound changes it; the bound is reached by `i = 1`, `RBUF[0] = 0`. -/
def Obligations.WalkEndsWithinBound : Prop :=
  (∀ (i n : Nat) (m : Memory) (c : Byte), i ≤ 253 → i + 1 ≤ n →
    walkSteps i n m c ≤ i + 1 ∧ rxWalk i n m c = rxWalk i (i + 1) m c) ∧
  (∀ (n : Nat) (m : Memory), Memory.read m 0 = 0 → 2 ≤ n → walkSteps 1 n m (Memory.read m 0) = 2)

/-- 42_reassembler.md section 2 (R90): on a buffer that begins with the body of a frame of R48, the walk restores the
untransformed body in as many steps as there are occurrences. -/
def Obligations.WalkRestoresTheBody : Prop :=
  ∀ (m : Memory) (init : Word) (p : List Byte), p.length ≤ 250 →
    Memory.slice m 0 (p.length + 3) = (frame init p).take (p.length + 3) →
    Memory.slice (restore (p.length + 3) m) 1 (p.length + 2) = body init p ∧
    walkSteps (p.length + 3) (p.length + 4) m (Memory.read m 0) = occurrences (body init p)

/-- 60_exceptions.md section 6 (R113): a delivered payload satisfies CRC_VERIFY on the restored block it came from: with the first
delimiter at `i`, the bytes at offsets `1..i-1` after the walk are the payload and two more, the block verifies, and the two bytes
received are the payload's checksum. -/
def Obligations.DeliveredPayloadVerifies : Prop :=
  ∀ (s t : State) (bs p : List Byte) (r : RxResult), exec (.ingest bs) s = .next t → t.results = [.rx r] → r.pout = some p →
    r.rxValid = true ∧ ∃ (i : Nat) (h l : Byte), first (stripped s.acc bs) = some i ∧
      (walk i (i + 1) ((stripped s.acc bs).take i) ((stripped s.acc bs).headD 0)).drop 1 = p ++ [h, l] ∧
      crcVerify s.cfg.crcInit (p ++ [h, l]) = true ∧ be16 h l = crcOf s.cfg.crcInit p

/-- R97 (derived in the spec): INGEST delivers at most 250 bytes; the 255-byte frame of a 251-byte payload loses its delimiter, is
not delivered, and wedges the framer with its body. -/
def Obligations.LargestDeliverablePayload : Prop :=
  (∀ (s t : State) (bs p : List Byte) (r : RxResult), exec (.ingest bs) s = .next t → t.results = [.rx r] →
    r.pout = some p → p.length ≤ 250) ∧
  (∀ (s : State) (p : List Byte), p.length = 251 →
    ∃ t tx u, exec (.encode p) s = .next t ∧ t.results = [.enc ⟨true, some tx⟩] ∧ tx.length = 255 ∧
      exec (.ingest tx) t = .next u ∧ u.results = [.rx ⟨false, none, none, 1, .noFrame⟩] ∧
      u.acc = tx.take 254 ∧ Wedged u)

/-- R96 (derived in the spec): a payload of at most 250 bytes, encoded by one framer and ingested by an empty framer with the same
`CRC_INIT`, is delivered; also after any number of stray delimiters and before any further bytes, as long as stray delimiters and
frame fit. -/
def Obligations.RoundTrip : Prop :=
  ∀ (s : State) (p : List Byte), p.length ≤ 250 →
    ∃ t tx, exec (.encode p) s = .next t ∧ t.results = [.enc ⟨true, some tx⟩] ∧
      ∀ (r : State) (n : Nat) (rest : List Byte), r.rlen = 0 → r.cfg = s.cfg → n + tx.length ≤ 254 →
        ∃ u, exec (.ingest (List.replicate n 0xFF#8 ++ tx ++ rest)) r = .next u ∧
          u.results = [.rx ⟨true, some p.length, some p, n + tx.length + rest.length - 254, .deliver⟩] ∧ u.rlen = 0

/-- 30_encoding.md section 3 (R54): the receiver accepts a frame whose chain ends with any value from `i` up (the head when there
is no occurrence, the last link otherwise) and delivers the same payload. -/
def Obligations.AnyChainEndIsAccepted : Prop :=
  ∀ (s : State) (p : List Byte) (v : Byte), s.rlen = 0 → p.length ≤ 250 → p.length + 3 ≤ v.toNat → v ≠ 0xFF#8 →
    ∃ t, exec (.ingest (frameEndingWith v s.cfg.crcInit p)) s = .next t ∧
      t.results = [.rx ⟨true, some p.length, some p, 0, .deliver⟩] ∧ t.rlen = 0

/-- 70_reset_and_hazards.md section 2 (R122): the frames of a sender with another `CRC_INIT` are rejected with `REJECT_CRC`, every
time. -/
def Obligations.ForeignCrcInitIsRejected : Prop :=
  ∀ (s : State) (init : Word) (p : List Byte), s.rlen = 0 → init ≠ s.cfg.crcInit → p.length ≤ 250 →
    ∃ t, exec (.ingest (frame init p)) s = .next t ∧ t.results = [.rx ⟨false, none, none, 0, .rejectCrc⟩] ∧ t.rlen = 0

/-- 42_reassembler.md section 4 (R98 a): however one frame is cut into chunks, empty ones included, every INGEST before the one
that carries the last byte returns `NO_FRAME`, that one delivers the payload, and polls after it return `NO_FRAME`. -/
def Obligations.ChunkingDoesNotMatter : Prop :=
  ∀ (s : State) (p : List Byte) (before : List Nat) (c k : Nat), s.rlen = 0 → p.length ≤ 250 → 0 < c →
    before.sum + c = p.length + 4 →
    ∃ t, exec (.feed (frame s.cfg.crcInit p) (before ++ c :: List.replicate k 0)) s = .next t ∧
      t.results = List.replicate before.length (.rx ⟨false, none, none, 0, .noFrame⟩) ++
        [.rx ⟨true, some p.length, some p, 0, .deliver⟩] ++
        List.replicate k (.rx ⟨false, none, none, 0, .noFrame⟩) ∧
      t.rlen = 0

/-- R125 (derived in the spec), the wedge: 254 bytes without a delimiter fill the buffer; then every INGEST returns `NO_FRAME`
with `rx_dropped = k` and leaves the state; only RESET or a successful ENCODE ends it, and they do. -/
def Obligations.WedgeLastsUntilResetOrEncode : Prop :=
  (∀ (s : State) (bs : List Byte), LenLegal s → (∀ b ∈ s.acc ++ bs, b ≠ 0xFF#8) → 254 ≤ s.acc.length + bs.length →
    ∃ t, exec (.ingest bs) s = .next t ∧ Wedged t) ∧
  (∀ (s : State) (bs : List Byte), Wedged s →
    ∃ t, exec (.ingest bs) s = .next t ∧ t.results = [.rx ⟨false, none, none, bs.length, .noFrame⟩] ∧
      t.rlen = s.rlen ∧ t.acc = s.acc) ∧
  (∀ s t : State, Wedged s → step s = .next t → ¬ Wedged t →
    ∃ c rest, s.cmds = c :: rest ∧ (decode c = .ok .reset ∨ ∃ p : List Byte, p.length ≤ 251 ∧ decode c = .ok (.encode p))) ∧
  (∀ s : State, Wedged s →
    (∃ t, exec .reset s = .next t ∧ ¬ Wedged t) ∧
    (∀ p : List Byte, p.length ≤ 251 → ∃ t, exec (.encode p) s = .next t ∧ ¬ Wedged t))

/-- 70_reset_and_hazards.md section 3 (R131): a delimiter that arrives within the room left, when something is accumulated, always
ends the current body: the body is judged and the buffer emptied. -/
def Obligations.DelimiterEndsTheBody : Prop :=
  ∀ (s : State) (pre post : List Byte), LenLegal s → NoDelimiter s → s.rlen ≠ 0 → pre.length < 254 - s.rlen.toNat →
    ∃ t r, exec (.ingest (pre ++ 0xFF#8 :: post)) s = .next t ∧ t.results = [.rx r] ∧ r.rxCause ≠ .noFrame ∧ t.acc = []

/-- 70_reset_and_hazards.md section 3 (R124): once a chunk holds a judged delimiter, whatever follows in the same chunk changes
neither the outcome nor the payload nor the empty buffer; it is lost. -/
def Obligations.BytesAfterTheDelimiterAreLost : Prop :=
  ∀ (s t : State) (bs rest : List Byte) (r : RxResult), exec (.ingest bs) s = .next t → t.results = [.rx r] →
    r.rxCause ≠ .noFrame →
    ∃ u, exec (.ingest (bs ++ rest)) s = .next u ∧ u.acc = [] ∧
      u.results = [.rx { r with rxDropped := bs.length + rest.length - (254 - s.rlen.toNat) }]

/-- 60_exceptions.md section 6 (R112): after an INGEST that judged a frame, whatever the outcome, the next frame that arrives
whole is delivered. -/
def Obligations.NextFrameAfterAJudgedOneIsDelivered : Prop :=
  ∀ (s t : State) (bs p : List Byte) (r : RxResult), exec (.ingest bs) s = .next t → t.results = [.rx r] →
    r.rxCause ≠ .noFrame → p.length ≤ 250 →
    ∃ u, exec (.ingest (frame s.cfg.crcInit p)) t = .next u ∧
      u.results = [.rx ⟨true, some p.length, some p, 0, .deliver⟩] ∧ u.rlen = 0

/-! ### Pseudo-operations -/

/-- 30_encoding.md section 5 (R63): DECODE is RESET followed by INGEST, in every state. -/
def Obligations.DecodeIsResetThenIngest : Prop :=
  ∀ (s : State) (w : List Byte),
    ∃ r t, exec .reset s = .next r ∧ exec (.ingest w) r = .next t ∧ exec (.decode w) s = .next t ∧
      t.acc = (Spec.ingest s.cfg.crcInit [] w).1 ∧ t.results = [.rx (Spec.ingest s.cfg.crcInit [] w).2]

/-- 30_encoding.md section 5 (R63): FEED is INGEST of the chunks in turn, with the results of each; a well-formed FEED's chunks
are consecutive, of the given lengths, and all of `w`. (One step for the whole, with all results kept, is the model's, log entry
11.) -/
def Obligations.FeedIngestsEachChunk : Prop :=
  (∀ (s : State) (w : List Byte) (lens : List Nat), LenLegal s →
    ∃ t, exec (.feed w lens) s = .next t ∧ t.acc = (Spec.feed s.cfg.crcInit s.acc (chunks w lens)).1 ∧
      t.results = (Spec.feed s.cfg.crcInit s.acc (chunks w lens)).2) ∧
  (∀ (w : List Byte) (lens : List Nat), WellFormed (.feed w lens) = true →
    (chunks w lens).flatten = w ∧ (chunks w lens).map List.length = lens)

/-- 30_encoding.md section 5 (R63): POLL is INGEST with `k = 0`; with the invariants it changes no state and returns `NO_FRAME`.
That WBUF and the cells of RBUF at or beyond `RLEN`, which the spec leaves any value, keep theirs is the model's choice (log entry
5). -/
def Obligations.PollChangesNothing : Prop :=
  ∀ s : State, LenLegal s → NoDelimiter s →
    ∃ t, exec .poll s = .next t ∧ exec (.ingest []) s = .next t ∧
      t.results = [.rx ⟨false, none, none, 0, .noFrame⟩] ∧ t.rlen = s.rlen ∧ t.wbuf = s.wbuf ∧ t.cfg = s.cfg ∧ t.cmds = s.cmds ∧
      ∀ a, Memory.read t.rbuf a = Memory.read s.rbuf a

/-- 30_encoding.md section 5 (R63): issuing the commands of an operation or pseudo-operation one by one leaves the state its
meaning leaves, but for the outputs of the earlier commands. -/
def Obligations.IssuedExpansionRunsAsTheOperation : Prop :=
  ∀ (i : Instr) (s : State), LenLegal s →
    (HostOperation i = true ∨ (∃ w, i = .decode w) ∨ (∃ w lens, i = .feed w lens) ∨ i = .poll) →
    ∃ t u : State, runSteps (encode i).length { s with cmds := encode i } = .next t ∧
      exec i { s with cmds := [] } = .next u ∧ { t with results := [] } = { u with results := [] }

/-! ### The checksum -/

/-- R64 (polynomial and bit order from general knowledge, as the spec marks them, log entry 12): the byte step is eight shifts of
the register after the byte meets its top 8 bits; and the rule's three examples. -/
def Obligations.CrcByteStep : Prop :=
  (∀ (r : Word) (b : Byte), crcByte r b =
    Nat.iterate (fun x : Word => if x.getLsbD 15 then (x <<< 1) ^^^ 0x1021#16 else x <<< 1) 8
      (r ^^^ (b.setWidth 16 <<< 8))) ∧
  crcByte 0xFFFF#16 0x0C#8 = 0x207C#16 ∧ crcByte 0#16 0x01#8 = 0x1021#16 ∧ crcByte 0#16 0x80#8 = 0x9188#16

/-- R67 (numbers: the polynomial of R64, log entry 12): CRC_PARTIAL returns the register after the byte steps in order and changes
no state; the empty sequence; the rule's worked example. -/
def Obligations.CrcPartialReturnsTheRegister : Prop :=
  (∀ (s : State) (prior : Word) (bytes : List Byte),
    exec (.crcPartial prior bytes) s = .next { s with results := [.crc (bytes.foldl crcByte prior)] }) ∧
  (∀ (s : State) (prior : Word), exec (.crcPartial prior []) s = .next { s with results := [.crc prior] }) ∧
  crcPartial (crcPartial 0xFFFF#16 [0x0C#8, 0x01#8]) [0x02#8, 0x03#8] = 0xAAC3#16 ∧
  crcPartial 0xFFFF#16 [0x0C#8, 0x01#8, 0x02#8, 0x03#8] = 0xAAC3#16

/-- R68 (numbers: the polynomial of R64, log entry 12): CRC_OF is CRC_PARTIAL from `CRC_INIT`; the empty sequence; the rule's
worked examples for both values of `CRC_INIT`. -/
def Obligations.CrcOfStartsFromCrcInit : Prop :=
  (∀ (s : State) (bytes : List Byte),
    exec (.crcOf bytes) s = .next { s with results := [.crc (crcPartial s.cfg.crcInit bytes)] }) ∧
  (∀ s : State, exec (.crcOf []) s = .next { s with results := [.crc s.cfg.crcInit] }) ∧
  crcOf 0xFFFF#16 [0x0C#8, 0x01#8, 0x02#8, 0x03#8] = 0xAAC3#16 ∧ crcOf 0#16 [0x0C#8, 0x01#8, 0x02#8, 0x03#8] = 0x2E03#16 ∧
  crcOf 0xFFFF#16 [0xFF#8, 0xFF#8] = 0x0000#16 ∧ crcOf 0#16 [0xFF#8, 0xFF#8] = 0x1D0F#16

/-- R69 (that both buffers can be named is the model's, log entry 10): CRC_APPEND returns the checksum of the block, writes it
high byte first into the two cells after the block, and changes no other cell of either buffer and no other state; `n = 0` writes
the bytes of `CRC_INIT`. -/
def Obligations.CrcAppendWritesTwoCells : Prop :=
  ∀ (s : State) (b : Buffer) (a n : Nat), a + n + 1 < b.cap →
    ∃ t c, exec (.crcAppend b a n) s = .next t ∧ t.results = [.crc c] ∧
      c = crcOf s.cfg.crcInit (Memory.slice (s.buffer b) a n) ∧ (n = 0 → c = s.cfg.crcInit) ∧
      Memory.read (t.buffer b) (a + n) = hi8 c ∧ Memory.read (t.buffer b) (a + n + 1) = lo8 c ∧
      (∀ k, k ≠ a + n → k ≠ a + n + 1 → Memory.read (t.buffer b) k = Memory.read (s.buffer b) k) ∧
      (∀ b', b' ≠ b → t.buffer b' = s.buffer b') ∧
      t.rlen = s.rlen ∧ t.cfg = s.cfg ∧ t.cmds = s.cmds

/-- R70 (numbers: the polynomial of R64, log entry 12): CRC_VERIFY returns whether the checksum of the whole block is zero and
changes no state; its corner cases and the rule's worked examples. -/
def Obligations.CrcVerifyTestsTheResidue : Prop :=
  (∀ (s : State) (bytes : List Byte),
    exec (.crcVerify bytes) s = .next { s with results := [.check (decide (crcOf s.cfg.crcInit bytes = 0))] }) ∧
  (∀ init : Word, crcVerify init [] = decide (init = 0)) ∧
  (∀ (init : Word) (b : Byte), crcVerify init [b] = decide (crcByte init b = 0)) ∧
  crcVerify 0xFFFF#16 [0x0C#8, 0x01#8, 0x02#8, 0x03#8, 0xAA#8, 0xC3#8] = true ∧
  crcVerify 0xFFFF#16 [0x0C#8, 0x01#8, 0x02#8, 0x03#8, 0xC3#8, 0xAA#8] = false ∧
  crcOf 0xFFFF#16 [0x0C#8, 0x01#8, 0x02#8, 0x03#8, 0xC3#8, 0xAA#8] = 0x4C3D#16 ∧
  crcVerify 0xFFFF#16 [0x0C#8, 0x01#8, 0x02#8, 0x02#8, 0xAA#8, 0xC3#8] = false

/-- R71 (derived in the spec; it rests on the polynomial of R64, log entry 12): the five laws of the primitive. -/
def Obligations.ChecksumLaws : Prop :=
  (∀ (r : Word) (a b : List Byte), crcPartial (crcPartial r a) b = crcPartial r (a ++ b)) ∧
  (∀ (r : Word) (h l : Byte), crcPartial r [h, l] = crcPartial (r ^^^ be16 h l) [0#8, 0#8]) ∧
  Function.Bijective (fun x : Word => crcPartial x [0#8, 0#8]) ∧ crcPartial 0#16 [0#8, 0#8] = 0 ∧
  (∀ r : Word, crcPartial r [hi8 r, lo8 r] = 0) ∧
  (∀ (r : Word) (h l : Byte), crcPartial r [h, l] = 0 ↔ be16 h l = r) ∧
  (∀ (init : Word) (d : List Byte) (h l : Byte), crcVerify init (d ++ [h, l]) = true ↔ be16 h l = crcOf init d) ∧
  (∀ (init : Word) (d : List Byte), crcVerify init (d ++ [hi8 (crcOf init d), lo8 (crcOf init d)]) = true)
end

