-- ==== Sys2Proof/Laws/Memory.lean ====
section
/-!
SUPPORT. The laws of the buffers: read after write, the canonical form, slices.
-/

namespace Sys2Proof.Machine.Memory

/-! ### Read after write -/

@[simp] theorem read_nil (k : Nat) : read [] k = blank := rfl

@[simp] theorem read_cons (c : Host.Cell) (m : Memory) (k : Nat) :
    read (c :: m) k = if c.1 = k then c.2 else read m k := rfl

theorem read_of_not_listed {m : Memory} {k : Nat} (h : ∀ c ∈ m, c.1 ≠ k) : read m k = blank := by
  induction m with
  | nil => rfl
  | cons c m ih =>
    rw [read_cons, if_neg (h c (by simp)), ih fun d hd => h d (by simp [hd])]

theorem read_filter (m : Memory) (k j : Nat) :
    read (m.filter (fun c => c.1 != k)) j = if k = j then blank else read m j := by
  induction m with
  | nil => simp
  | cons c m ih =>
    by_cases hc : c.1 = k
    · rw [List.filter_cons_of_neg (by simp [hc]), ih, read_cons]
      by_cases hj : k = j
      · simp [hj]
      · simp [hj, hc]
    · rw [List.filter_cons_of_pos (by simp [hc]), read_cons, read_cons, ih]
      by_cases hj : k = j
      · subst hj; simp [hc]
      · simp [hj]

theorem read_insertCell (m : Memory) (k : Nat) (v : Byte) (h : ∀ c ∈ m, c.1 ≠ k) (j : Nat) :
    read (insertCell k v m) j = if k = j then v else read m j := by
  induction m with
  | nil => simp [insertCell]
  | cons c m ih =>
    obtain ⟨a, w⟩ := c
    have hne : a ≠ k := h (a, w) (by simp)
    have ih := ih fun d hd => h d (by simp [hd])
    unfold insertCell
    split
    · simp
    · rw [read_cons, read_cons, ih]
      by_cases ha : a = j
      · subst ha; simp [Ne.symm hne]
      · simp [ha]

/-- Reading after a write: the written byte at the written offset, the old byte everywhere else. -/
theorem read_write (m : Memory) (k : Nat) (v : Byte) (j : Nat) :
    read (write m k v) j = if k = j then v else read m j := by
  have hf : ∀ c ∈ m.filter (fun c => c.1 != k), c.1 ≠ k := by simp
  unfold write
  by_cases hv : v = blank
  · simp only [hv, if_true, read_filter]
  · simp only [hv, if_false, read_insertCell _ _ _ hf, read_filter]
    by_cases hk : k = j <;> simp [hk]

@[simp] theorem read_write_same (m : Memory) (k : Nat) (v : Byte) : read (write m k v) k = v := by
  simp [read_write]

theorem read_write_other {m : Memory} {k j : Nat} {v : Byte} (h : k ≠ j) : read (write m k v) j = read m j := by
  simp [read_write, h]

/-! ### The canonical form -/

theorem mem_insertCell {m : Memory} {k : Nat} {v : Byte} {c : Host.Cell} (h : c ∈ insertCell k v m) :
    c = (k, v) ∨ c ∈ m := by
  induction m with
  | nil => simpa [insertCell] using h
  | cons d m ih =>
    obtain ⟨a, w⟩ := d
    unfold insertCell at h
    split at h
    · simpa using h
    · rcases List.mem_cons.1 h with rfl | h
      · simp
      · rcases ih h with h | h <;> simp [h]

theorem insertCell_wf {m : Memory} {k : Nat} {v : Byte} (hm : m.wf) (hk : ∀ c ∈ m, c.1 ≠ k) (hv : v ≠ blank) :
    wf (insertCell k v m) := by
  refine ⟨?_, fun c hc => ?_⟩
  · obtain ⟨hs, -⟩ := hm
    induction m with
    | nil => simp [insertCell]
    | cons d m ih =>
      obtain ⟨a, w⟩ := d
      have hne : a ≠ k := hk (a, w) (by simp)
      obtain ⟨ha, hs⟩ := List.pairwise_cons.1 hs
      unfold insertCell
      split
      · rename_i hlt
        refine List.pairwise_cons.2 ⟨fun c hc => ?_, List.pairwise_cons.2 ⟨ha, hs⟩⟩
        rcases List.mem_cons.1 hc with rfl | hc
        · exact hlt
        · exact Nat.lt_trans hlt (ha c hc)
      · rename_i hge
        refine List.pairwise_cons.2 ⟨fun c hc => ?_, ih (fun c hc => hk c (by simp [hc])) hs⟩
        rcases mem_insertCell hc with rfl | hc
        · show a < k
          omega
        · exact ha c hc
  · rcases mem_insertCell hc with rfl | hc
    · exact hv
    · exact hm.2 c hc

/-- A write keeps the canonical form. -/
theorem write_wf {m : Memory} (hm : m.wf) (k : Nat) (v : Byte) : (write m k v).wf := by
  have hf : wf (m.filter (fun c => c.1 != k)) :=
    ⟨hm.1.filter _, fun c hc => hm.2 c (List.mem_of_mem_filter hc)⟩
  unfold write
  by_cases hv : v = blank
  · simpa only [hv, if_true] using hf
  · simpa only [hv, if_false] using insertCell_wf hf (by simp) hv

/-- A write inside the buffer lists no cell outside it. -/
theorem write_within {m : Memory} {cap : Nat} (hm : m.within cap) {k : Nat} (hk : k < cap) (v : Byte) :
    (write m k v).within cap := by
  intro c hc
  unfold write at hc
  by_cases hv : v = blank
  · simp only [hv, if_true] at hc
    exact hm c (List.mem_of_mem_filter hc)
  · simp only [hv, if_false] at hc
    rcases mem_insertCell hc with rfl | hc
    · exact hk
    · exact hm c (List.mem_of_mem_filter hc)

theorem nil_wf : wf [] := ⟨List.Pairwise.nil, nofun⟩

/-- A head cell of a canonical memory is found by reading, and no lower offset is listed. -/
theorem read_below_head {c : Host.Cell} {m : Memory} (h : wf (c :: m)) {k : Nat} (hk : k < c.1) :
    read (c :: m) k = blank := by
  apply read_of_not_listed
  intro d hd
  rcases List.mem_cons.1 hd with rfl | hd
  · omega
  · have := (List.pairwise_cons.1 h.1).1 d hd
    omega

/-- Two canonical memories that read the same everywhere are the same list. -/
theorem eq_of_read_eq {m n : Memory} (hm : m.wf) (hn : n.wf) (h : ∀ k, read m k = read n k) : m = n := by
  induction m generalizing n with
  | nil =>
    cases n with
    | nil => rfl
    | cons d n => exact absurd (by simpa using (h d.1).symm) (hn.2 d (by simp))
  | cons c m ih =>
    cases n with
    | nil => exact absurd (by simpa using h c.1) (hm.2 c (by simp))
    | cons d n =>
      have hcd : c.1 = d.1 := by
        rcases Nat.lt_trichotomy c.1 d.1 with hlt | heq | hgt
        · exact absurd (by simpa [read_below_head hn hlt] using h c.1) (hm.2 c (by simp))
        · exact heq
        · exact absurd (by simpa [read_below_head hm hgt] using (h d.1).symm) (hn.2 d (by simp))
      have hv : c.2 = d.2 := by simpa [hcd] using h c.1
      have hm' : wf m := ⟨(List.pairwise_cons.1 hm.1).2, fun e he => hm.2 e (by simp [he])⟩
      have hn' : wf n := ⟨(List.pairwise_cons.1 hn.1).2, fun e he => hn.2 e (by simp [he])⟩
      have hrest : m = n := ih hm' hn' fun k => by
        by_cases hk : c.1 = k
        · subst hk
          rw [read_of_not_listed fun e he => Nat.ne_of_gt ((List.pairwise_cons.1 hm.1).1 e he),
            read_of_not_listed fun e he => Nat.ne_of_gt (hcd ▸ (List.pairwise_cons.1 hn.1).1 e he)]
        · simpa [hk, hcd ▸ hk] using h k
      rw [hrest, Prod.ext hcd hv]

/-! ### Slices -/

@[simp] theorem slice_zero (m : Memory) (a : Nat) : slice m a 0 = [] := rfl

theorem slice_succ (m : Memory) (a n : Nat) : slice m a (n + 1) = read m a :: slice m (a + 1) n := rfl

@[simp] theorem length_slice (m : Memory) (a n : Nat) : (slice m a n).length = n := by
  induction n generalizing a with
  | zero => rfl
  | succ n ih => simp [slice_succ, ih]

theorem slice_eq_map (m : Memory) (a n : Nat) : slice m a n = (List.range n).map (fun k => read m (a + k)) := by
  induction n generalizing a with
  | zero => rfl
  | succ n ih =>
    rw [slice_succ, ih, List.range_succ_eq_map]
    simp [Function.comp_def, Nat.add_assoc, Nat.add_comm 1]

@[simp] theorem getElem_slice (m : Memory) (a n k : Nat) (h : k < (slice m a n).length) :
    (slice m a n)[k] = read m (a + k) := by
  simp [slice_eq_map]

theorem getElem?_slice (m : Memory) (a n k : Nat) :
    (slice m a n)[k]? = if k < n then some (read m (a + k)) else none := by
  split
  · rw [List.getElem?_eq_getElem (by simpa)]; simp
  · rw [List.getElem?_eq_none (by simpa using Nat.le_of_not_lt ‹_›)]

/-- Two slices that read the same cells are equal. -/
theorem slice_congr {m n : Memory} {a b l : Nat} (h : ∀ k < l, read m (a + k) = read n (b + k)) :
    slice m a l = slice n b l := by
  apply List.ext_getElem (by simp)
  intro k h1 h2
  simpa using h k (by simpa using h1)

theorem slice_add (m : Memory) (a n l : Nat) : slice m a (n + l) = slice m a n ++ slice m (a + n) l := by
  induction n generalizing a with
  | zero => simp
  | succ n ih => rw [Nat.succ_add, slice_succ, slice_succ, ih]; simp [Nat.add_assoc, Nat.add_comm 1]

theorem take_slice (m : Memory) (a n l : Nat) (h : l ≤ n) : (slice m a n).take l = slice m a l := by
  obtain ⟨d, rfl⟩ := Nat.exists_eq_add_of_le h
  rw [slice_add, List.take_left' (by simp)]

theorem drop_slice (m : Memory) (a n l : Nat) (h : l ≤ n) : (slice m a n).drop l = slice m (a + l) (n - l) := by
  obtain ⟨d, rfl⟩ := Nat.exists_eq_add_of_le h
  rw [slice_add, List.drop_left' (by simp)]; simp

theorem slice_write_outside {m : Memory} {a n k : Nat} {v : Byte} (h : k < a ∨ a + n ≤ k) :
    slice (write m k v) a n = slice m a n :=
  slice_congr fun j hj => read_write_other (by omega)

/-- Writing a cell of a slice sets the byte of that offset. -/
theorem slice_write_inside {m : Memory} {n k : Nat} {v : Byte} :
    slice (write m k v) 0 n = (slice m 0 n).set k v := by
  apply List.ext_getElem (by simp)
  intro j h1 h2
  simp [List.getElem_set, read_write]

/-- Writing consecutive bytes. -/
theorem read_writeBytes (m : Memory) (a : Nat) (bs : List Byte) (k : Nat) :
    read (writeBytes m a bs) k = if a ≤ k then (bs[k - a]?).getD (read m k) else read m k := by
  induction bs generalizing m a with
  | nil => simp [writeBytes]
  | cons b bs ih =>
    rw [writeBytes, ih, read_write]
    rcases Nat.lt_trichotomy a k with hlt | heq | hgt
    · have h1 : a + 1 ≤ k := hlt
      obtain ⟨d, rfl⟩ := Nat.exists_eq_add_of_le h1
      have h2 : a + 1 + d - a = d + 1 := by omega
      have h3 : a + 1 + d - (a + 1) = d := by omega
      have h4 : ¬ a = a + 1 + d := by omega
      have h5 : a ≤ a + 1 + d := by omega
      simp [h2, h4, h5]
    · subst heq; simp
    · have h1 : ¬ a + 1 ≤ k := by omega
      have h2 : ¬ a ≤ k := by omega
      have h3 : ¬ a = k := by omega
      simp [h1, h2, h3]

theorem read_writeBytes_inside {m : Memory} {a : Nat} {bs : List Byte} {k : Nat} (h : k < bs.length) :
    read (writeBytes m a bs) (a + k) = bs[k] := by
  simp [read_writeBytes, h]

theorem slice_writeBytes (m : Memory) (a : Nat) (bs : List Byte) : slice (writeBytes m a bs) a bs.length = bs := by
  apply List.ext_getElem (by simp)
  intro k h1 h2
  simp [read_writeBytes, h2]

theorem writeBytes_wf {m : Memory} (hm : m.wf) (a : Nat) (bs : List Byte) : (writeBytes m a bs).wf := by
  induction bs generalizing m a with
  | nil => exact hm
  | cons b bs ih => exact ih (write_wf hm _ _) _

theorem writeBytes_within {m : Memory} {cap : Nat} (hm : m.within cap) {a : Nat} {bs : List Byte}
    (h : a + bs.length ≤ cap) : (writeBytes m a bs).within cap := by
  induction bs generalizing m a with
  | nil => exact hm
  | cons b bs ih =>
    simp only [List.length_cons] at h
    exact ih (write_within hm (by omega) _) (by omega)

end Sys2Proof.Machine.Memory
end

