-- ==== Sys2Proof/Laws/State.lean ====
section
/-!
SUPPORT. The fields of State under each named update: one lemma per field per update, so that no proof unfolds a record update.
-/

namespace Sys2Proof.Machine.State

variable (s : State) (rs : List OpResult) (m : Memory) (w : RxWork) (r : RxResult)

@[simp] theorem returns_rbuf : (s.returns rs).rbuf = s.rbuf := rfl
@[simp] theorem returns_rlen : (s.returns rs).rlen = s.rlen := rfl
@[simp] theorem returns_wbuf : (s.returns rs).wbuf = s.wbuf := rfl
@[simp] theorem returns_cfg : (s.returns rs).cfg = s.cfg := rfl
@[simp] theorem returns_cmds : (s.returns rs).cmds = s.cmds := rfl
@[simp] theorem returns_results : (s.returns rs).results = rs := rfl
@[simp] theorem returns_acc : (s.returns rs).acc = s.acc := rfl

@[simp] theorem emptyRx_rbuf : s.emptyRx.rbuf = s.rbuf := rfl
@[simp] theorem emptyRx_rlen : s.emptyRx.rlen = 0 := rfl
@[simp] theorem emptyRx_wbuf : s.emptyRx.wbuf = s.wbuf := rfl
@[simp] theorem emptyRx_cfg : s.emptyRx.cfg = s.cfg := rfl
@[simp] theorem emptyRx_cmds : s.emptyRx.cmds = s.cmds := rfl
@[simp] theorem emptyRx_results : s.emptyRx.results = s.results := rfl
@[simp] theorem emptyRx_acc : s.emptyRx.acc = [] := rfl

@[simp] theorem finishRx_rbuf : (s.finishRx w r).rbuf = w.rbuf := rfl
@[simp] theorem finishRx_rlen : (s.finishRx w r).rlen = w.rlen := rfl
@[simp] theorem finishRx_wbuf : (s.finishRx w r).wbuf = s.wbuf := rfl
@[simp] theorem finishRx_cfg : (s.finishRx w r).cfg = s.cfg := rfl
@[simp] theorem finishRx_cmds : (s.finishRx w r).cmds = s.cmds := rfl
@[simp] theorem finishRx_results : (s.finishRx w r).results = [.rx r] := rfl
@[simp] theorem finishRx_acc : (s.finishRx w r).acc = Memory.slice w.rbuf 0 w.rlen.toNat := rfl

@[simp] theorem setBuffer_rbuf_rbuf : (s.setBuffer .rbuf m).rbuf = m := rfl
@[simp] theorem setBuffer_rbuf_wbuf : (s.setBuffer .rbuf m).wbuf = s.wbuf := rfl
@[simp] theorem setBuffer_wbuf_rbuf : (s.setBuffer .wbuf m).rbuf = s.rbuf := rfl
@[simp] theorem setBuffer_wbuf_wbuf : (s.setBuffer .wbuf m).wbuf = m := rfl

@[simp] theorem setBuffer_rlen (b : Buffer) : (s.setBuffer b m).rlen = s.rlen := by cases b <;> rfl
@[simp] theorem setBuffer_cfg (b : Buffer) : (s.setBuffer b m).cfg = s.cfg := by cases b <;> rfl
@[simp] theorem setBuffer_cmds (b : Buffer) : (s.setBuffer b m).cmds = s.cmds := by cases b <;> rfl
@[simp] theorem setBuffer_results (b : Buffer) : (s.setBuffer b m).results = s.results := by cases b <;> rfl
@[simp] theorem buffer_setBuffer (b : Buffer) : (s.setBuffer b m).buffer b = m := by cases b <;> rfl

@[simp] theorem returns_returns (qs : List OpResult) : (s.returns qs).returns rs = s.returns rs := rfl

@[simp] theorem issueFirst_cmds (c : Command) : (issueFirst s c).cmds = c :: s.cmds := rfl

end Sys2Proof.Machine.State
end

