-- ==== Sys2Proof/Laws/Checksum.lean ====
section
/-!
SUPPORT. What the checksum forms do (40_checksum.md).
-/

namespace Sys2Proof.Machine

@[simp] theorem crcPartial_nil (r : Word) : crcPartial r [] = r := rfl

@[simp] theorem crcPartial_cons (r : Word) (b : Byte) (bs : List Byte) :
    crcPartial r (b :: bs) = crcPartial (crcByte r b) bs := rfl

/-- The value `CRC_APPEND` returns. -/
theorem crcAppend_value (init : Word) (m : Memory) (a n : Nat) :
    (crcAppend init m a n).1 = crcOf init (Memory.slice m a n) := rfl

/-- The cells after `CRC_APPEND`: the two check bytes after the block, every other cell as before. -/
theorem read_crcAppend (init : Word) (m : Memory) (a n k : Nat) :
    Memory.read (crcAppend init m a n).2 k =
      if k = a + n then hi8 (crcOf init (Memory.slice m a n))
      else if k = a + n + 1 then lo8 (crcOf init (Memory.slice m a n))
      else Memory.read m k := by
  simp only [crcAppend, Memory.read_write]
  by_cases h1 : k = a + n
  · subst h1; simp
  · by_cases h2 : k = a + n + 1
    · subst h2; simp
    · simp [h1, h2, Ne.symm h1, Ne.symm h2]

theorem crcAppend_wf {m : Memory} (hm : m.wf) (init : Word) (a n : Nat) : (crcAppend init m a n).2.wf :=
  Memory.write_wf (Memory.write_wf hm _ _) _ _

theorem crcAppend_within {m : Memory} {cap : Nat} (hm : m.within cap) (init : Word) {a n : Nat} (h : a + n + 1 < cap) :
    (crcAppend init m a n).2.within cap :=
  Memory.write_within (Memory.write_within hm (by omega) _) h _

end Sys2Proof.Machine
end

