-- ==== Sys2Proof/Laws/Sequences.lean ====
section
/-!
SUPPORT. The sequence functions of 00_scope.md R10 as Safety.lean writes them: the run of delimiters and the first delimiter.
-/

namespace Sys2Proof.Spec

@[simp] theorem lead_nil : lead [] = 0 := rfl
@[simp] theorem first_nil : first [] = none := rfl

theorem lead_cons_delim (bs : List Byte) : lead (Config.delim :: bs) = lead bs + 1 := by simp [lead]
theorem lead_cons_other {b : Byte} (h : b ≠ Config.delim) (bs : List Byte) : lead (b :: bs) = 0 := by simp [lead, h]
theorem first_cons_delim (bs : List Byte) : first (Config.delim :: bs) = some 0 := by simp [first]
theorem first_cons_other {b : Byte} (h : b ≠ Config.delim) (bs : List Byte) :
    first (b :: bs) = (first bs).map (· + 1) := by simp [first, h]

theorem lead_le_length (u : List Byte) : lead u ≤ u.length := by
  induction u with
  | nil => simp
  | cons b bs ih => by_cases h : b = Config.delim <;> simp [lead, h]; exact ih

/-- A sequence that does not begin with a delimiter has nothing to strip. -/
theorem lead_eq_zero {u : List Byte} (h : ∀ b ∈ u.head?, b ≠ Config.delim) : lead u = 0 := by
  cases u with
  | nil => rfl
  | cons b bs => exact lead_cons_other (h b (by simp)) bs

/-- What is left after the strip does not begin with a delimiter. -/
theorem head_drop_lead (u : List Byte) : ∀ b ∈ (u.drop (lead u)).head?, b ≠ Config.delim := by
  induction u with
  | nil => simp
  | cons b bs ih =>
    by_cases h : b = Config.delim
    · subst h; rw [lead_cons_delim, List.drop_succ_cons]; exact ih
    · rw [lead_cons_other h]; simpa using h

theorem first_eq_none_iff {u : List Byte} : first u = none ↔ ∀ b ∈ u, b ≠ Config.delim := by
  induction u with
  | nil => simp
  | cons b bs ih =>
    by_cases h : b = Config.delim
    · simp [first, h]
    · simp [first, h, ih]

/-- The first delimiter: there is one at `i`, and none before. -/
theorem first_eq_some_iff {u : List Byte} {i : Nat} :
    first u = some i ↔ u[i]? = some Config.delim ∧ ∀ b ∈ u.take i, b ≠ Config.delim := by
  induction u generalizing i with
  | nil => simp
  | cons b bs ih =>
    by_cases h : b = Config.delim
    · subst h
      rw [first_cons_delim]
      cases i with
      | zero => simp
      | succ i => simp
    · rw [first_cons_other h]
      cases i with
      | zero => simp [h]
      | succ i => simp [ih, h]

theorem first_lt_length {u : List Byte} {i : Nat} (h : first u = some i) : i < u.length := by
  obtain ⟨h, -⟩ := first_eq_some_iff.1 h
  exact (List.getElem?_eq_some_iff.1 h).1

/-- After the strip the first delimiter stands at offset 1 or later (R88). -/
theorem first_pos_of_stripped {u : List Byte} {i : Nat} (h : first (u.drop (lead u)) = some i) : 0 < i := by
  cases i with
  | succ i => exact Nat.succ_pos i
  | zero =>
    have h0 := (first_eq_some_iff.1 h).1
    exact absurd rfl (head_drop_lead u _ (by rw [List.head?_eq_getElem?, h0]; simp))

/-- A sequence without delimiters in front moves the first delimiter by its length. -/
theorem first_append_of_no_delim {u v : List Byte} (h : ∀ b ∈ u, b ≠ Config.delim) :
    first (u ++ v) = (first v).map (· + u.length) := by
  induction u with
  | nil => simp
  | cons b bs ih =>
    rw [List.cons_append, first_cons_other (h b (by simp)), ih fun c hc => h c (by simp [hc])]
    cases first v <;> simp [Nat.add_assoc]

/-- Bytes after the first delimiter do not move it. -/
theorem first_append_of_some {u v : List Byte} {i : Nat} (h : first u = some i) : first (u ++ v) = some i := by
  have hi := first_lt_length h
  obtain ⟨h1, h2⟩ := first_eq_some_iff.1 h
  exact first_eq_some_iff.2 ⟨by rw [List.getElem?_append_left hi, h1],
    by rw [List.take_append_of_le_length (Nat.le_of_lt hi)]; exact h2⟩

@[simp] theorem lead_replicate (n : Nat) (u : List Byte) :
    lead (List.replicate n Config.delim ++ u) = n + lead u := by
  induction n with
  | zero => simp
  | succ n ih => rw [List.replicate_succ, List.cons_append, lead_cons_delim, ih]; omega

theorem length_appended {acc bs : List Byte} :
    (appended acc bs).length = acc.length + min (Config.rbufCap - acc.length) bs.length := by
  simp [appended]

@[simp] theorem length_walk (i n : Nat) (b : List Byte) (c : Byte) : (walk i n b c).length = b.length := by
  induction n generalizing b c with
  | zero => rfl
  | succ n ih =>
    unfold walk
    split
    · rw [ih, List.length_set]
    · rfl

end Sys2Proof.Spec
end

