-- ==== Sys2Proof/Laws/Encoder.lean ====
section
/-!
SUPPORT. What the steps of ENCODE leave in the working buffer (41_encoder.md R75 to R77), in the terms of the closed form of R48.
-/

namespace Sys2Proof.Machine

open Sys2Proof.Spec

@[simp] theorem length_body (init : Word) (p : List Byte) : (body init p).length = p.length + 2 := by simp [body]

@[simp] theorem length_chained (v : Byte) (j : Nat) (u : List Byte) : (chained v j u).length = u.length := by
  induction u generalizing j with
  | nil => rfl
  | cons b bs ih => simp [chained, ih]

@[simp] theorem length_frameEndingWith (v : Byte) (init : Word) (p : List Byte) :
    (frameEndingWith v init p).length = p.length + 4 := by simp [frameEndingWith]

/-! ### Build (R75) -/

/-- The cells after the build: the body from offset 1, the delimiter after it, every other cell as before. -/
theorem read_buildFrame (init : Word) (m : Memory) (p : List Byte) (k : Nat) :
    Memory.read (buildFrame init m p) k =
      if k = p.length + 3 then Config.delim
      else if 1 ≤ k then ((body init p)[k - 1]?).getD (Memory.read m k)
      else Memory.read m k := by
  have hs : Memory.slice (Memory.writeBytes m 1 p) 1 p.length = p := Memory.slice_writeBytes m 1 p
  simp only [buildFrame, sizeOperand, Memory.read_write, read_crcAppend, hs, Memory.read_writeBytes, body]
  by_cases h3 : p.length + 3 = k
  · subst h3; simp
  · rw [if_neg h3, if_neg (Ne.symm h3)]
    by_cases h1 : k = 1 + p.length
    · subst h1
      have : 1 + p.length - 1 = p.length := by omega
      simp [this]
    · rw [if_neg h1]
      by_cases h2 : k = 1 + p.length + 1
      · subst h2
        have : 1 + p.length + 1 - 1 = p.length + 1 := by omega
        simp [this]
      · rw [if_neg h2]
        by_cases h4 : 1 ≤ k
        · rw [if_pos h4, if_pos h4, List.getElem?_append]
          split
          · rfl
          · rw [List.getElem?_eq_none (by omega), List.getElem?_eq_none (by simp; omega)]
        · rw [if_neg h4, if_neg h4]

/-- The body stands at offset 1 after the build. -/
theorem slice_buildFrame (init : Word) (m : Memory) (p : List Byte) :
    Memory.slice (buildFrame init m p) 1 (p.length + 2) = body init p := by
  apply List.ext_getElem (by simp)
  intro k h1 h2
  rw [length_body] at h2
  rw [Memory.getElem_slice, read_buildFrame, if_neg (by omega), if_pos (by omega)]
  simp [show k < p.length + 2 by omega]

/-! ### Transform (R76, R77) -/

/-- The cells after the scan and the chain-end write, for a scan of `n` offsets from `j` up whose last chain cell is at `last`. -/
theorem read_scanLinks (v : Byte) (n j last : Nat) (m : Memory) (h : last < j) (k : Nat) :
    Memory.read (Memory.write (scanLinks n j last m).1 (scanLinks n j last m).2 v) k =
      if k = last then nextLink v j (Memory.slice m j n)
      else if j ≤ k then ((chained v j (Memory.slice m j n))[k - j]?).getD (Memory.read m k)
      else Memory.read m k := by
  induction n generalizing j last m with
  | zero =>
    simp only [scanLinks, Memory.read_write, Memory.slice_zero, nextLink, chained]
    by_cases hk : last = k
    · simp [hk]
    · simp [hk, Ne.symm hk]
  | succ n ih =>
    have hs : ∀ b, Memory.slice (Memory.write m last b) (j + 1) n = Memory.slice m (j + 1) n :=
      fun b => Memory.slice_write_outside (.inl (by omega))
    by_cases hd : Memory.read m j = Config.delim
    · simp only [scanLinks, hd, if_true]
      rw [ih (j + 1) j _ (by omega), hs, Memory.slice_succ, hd, nextLink, if_pos rfl, chained, if_pos rfl]
      by_cases hl : k = last
      · subst hl
        rw [if_neg (by omega), if_neg (by omega), if_pos rfl, Memory.read_write_same]
      · rw [if_neg hl]
        by_cases hj : k = j
        · subst hj; simp
        · rw [if_neg hj, Memory.read_write_other (Ne.symm hl)]
          by_cases hjk : j + 1 ≤ k
          · obtain ⟨d, rfl⟩ := Nat.exists_eq_add_of_le hjk
            have e1 : j + 1 + d - j = d + 1 := by omega
            have e2 : j + 1 + d - (j + 1) = d := by omega
            rw [if_pos hjk, if_pos (by omega), e1, e2, List.getElem?_cons_succ]
          · rw [if_neg hjk, if_neg (by omega)]
    · simp only [scanLinks, hd, if_false]
      rw [ih (j + 1) last m (by omega), Memory.slice_succ, nextLink, if_neg hd, chained, if_neg hd]
      by_cases hl : k = last
      · simp [hl]
      · rw [if_neg hl, if_neg hl]
        by_cases hj : k = j
        · subst hj; simp
        · by_cases hjk : j + 1 ≤ k
          · obtain ⟨d, rfl⟩ := Nat.exists_eq_add_of_le hjk
            have e1 : j + 1 + d - j = d + 1 := by omega
            have e2 : j + 1 + d - (j + 1) = d := by omega
            rw [if_pos hjk, if_pos (by omega), e1, e2, List.getElem?_cons_succ]
          · rw [if_neg hjk, if_neg (by omega)]

/-- The cells of `WBUF` after ENCODE: the frame of R48 in cells `0..size+3`, every other cell as before. -/
theorem read_frameBuffer (init : Word) (m : Memory) (p : List Byte) (k : Nat) :
    Memory.read (frameBuffer init m p) k = ((frame init p)[k]?).getD (Memory.read m k) := by
  rw [frameBuffer, transform, sizeOperand, read_scanLinks _ _ _ _ _ (by omega), slice_buildFrame]
  cases k with
  | zero => simp [frame, frameEndingWith]
  | succ k =>
    rw [if_neg (by omega), if_pos (by omega), read_buildFrame]
    simp only [frame, frameEndingWith, List.cons_append, List.getElem?_cons_succ, Nat.add_sub_cancel]
    rcases Nat.lt_trichotomy k (p.length + 2) with hlt | heq | hgt
    · rw [List.getElem?_append_left (by simpa using hlt), List.getElem?_eq_getElem (by simpa using hlt)]
      rfl
    · subst heq
      rw [List.getElem?_eq_none (by simp), List.getElem?_append_right (by simp)]
      simp
    · rw [List.getElem?_eq_none (by simp; omega), List.getElem?_eq_none (by simp; omega),
        List.getElem?_eq_none (by simp; omega)]
      simp; omega

theorem scanLinks_wf {m : Memory} (hm : m.wf) (n j last : Nat) : (scanLinks n j last m).1.wf := by
  induction n generalizing j last m with
  | zero => exact hm
  | succ n ih =>
    unfold scanLinks
    split
    · exact ih (Memory.write_wf hm _ _) _ _
    · exact ih hm _ _

/-- The scan writes chain cells only, so below the end of its range. -/
theorem scanLinks_within {m : Memory} {cap : Nat} (hm : m.within cap) {n j last : Nat} (hl : last < j) (hj : j + n ≤ cap) :
    (scanLinks n j last m).1.within cap ∧ (scanLinks n j last m).2 < j + n := by
  induction n generalizing j last m with
  | zero => exact ⟨hm, hl⟩
  | succ n ih =>
    unfold scanLinks
    split
    · have := ih (Memory.write_within hm (show last < cap by omega) (BitVec.ofNat 8 j)) (show j < j + 1 by omega) (by omega)
      exact ⟨this.1, by omega⟩
    · have := ih hm (show last < j + 1 by omega) (by omega)
      exact ⟨this.1, by omega⟩

theorem buildFrame_wf {m : Memory} (hm : m.wf) (init : Word) (p : List Byte) : (buildFrame init m p).wf := by
  unfold buildFrame
  exact Memory.write_wf (crcAppend_wf (Memory.writeBytes_wf hm _ _) _ _ _) _ _

theorem buildFrame_within {m : Memory} (hm : m.within 255) (init : Word) {p : List Byte} (hp : p.length ≤ 251) :
    (buildFrame init m p).within 255 := by
  unfold buildFrame sizeOperand
  exact Memory.write_within (crcAppend_within (Memory.writeBytes_within hm (by omega)) init (by omega)) (by omega) _

theorem frameBuffer_wf {m : Memory} (hm : m.wf) (init : Word) (p : List Byte) : (frameBuffer init m p).wf := by
  unfold frameBuffer transform
  exact Memory.write_wf (scanLinks_wf (buildFrame_wf hm init p) _ _ _) _ _

theorem frameBuffer_within {m : Memory} (hm : m.within 255) (init : Word) {p : List Byte} (hp : p.length ≤ 251) :
    (frameBuffer init m p).within 255 := by
  have hs := scanLinks_within (buildFrame_within hm init hp) (n := p.length + 2) (j := 1) (last := 0) (by omega) (by omega)
  unfold frameBuffer transform sizeOperand
  exact Memory.write_within hs.1 (Nat.lt_of_lt_of_le hs.2 (by omega)) _

/-! ### The whole operation -/

/-- An oversized ENCODE changes nothing but the outputs (R74). -/
theorem encodeOp_oversize {p : List Byte} (h : 251 < p.length) (s : State) :
    encodeOp p s = .next (s.returns [.enc .oversize]) := by
  have h2 : ¬ p.length ≤ 251 := by omega
  simp [encodeOp, encOkOf, sizeOperand, h2]

/-- A successful ENCODE: the working buffer, `RLEN <- 0`, and the bytes of the buffer as `TX`. -/
theorem encodeOp_fits {p : List Byte} (h : p.length ≤ 251) (s : State) :
    encodeOp p s = .next (({ s with wbuf := frameBuffer s.cfg.crcInit s.wbuf p }.emptyRx).returns
      [.enc (.ok (Memory.slice (frameBuffer s.cfg.crcInit s.wbuf p) 0 (p.length + 4)))]) := by
  simp [encodeOp, encOkOf, sizeOperand, h]

end Sys2Proof.Machine
end

