-- ==== Sys2Proof/Laws/Reassembler.lean ====
section
/-!
SUPPORT. What each step of INGEST does to the working registers (42_reassembler.md R84 to R93), in the terms of R95.
-/

namespace Sys2Proof.Machine

open Sys2Proof.Spec

/-! ### Step 1: append (R84) -/

theorem rxAppend_nil (w : RxWork) : rxAppend w [] = w := rfl

/-- A byte that fits. -/
theorem rxAppend_cons_kept {w : RxWork} (h : w.rlen.toNat < 254) (b : Byte) (bs : List Byte) :
    rxAppend w (b :: bs) =
      rxAppend { w with rbuf := Memory.write w.rbuf w.rlen.toNat b, rlen := w.rlen + 1 } bs := by
  rw [rxAppend, if_pos h]

/-- A byte that does not. -/
theorem rxAppend_cons_dropped {w : RxWork} (h : ¬ w.rlen.toNat < 254) (b : Byte) (bs : List Byte) :
    rxAppend w (b :: bs) = rxAppend { w with dropped := w.dropped + 1 } bs := by
  rw [rxAppend, if_neg h]

theorem toNat_succ_of_lt {x : BitVec 8} (h : x.toNat < 254) : (x + 1).toNat = x.toNat + 1 := by
  rw [BitVec.toNat_add]; simp; omega

/-- The length after the append: the first `min (254 - L) k` bytes are kept. -/
theorem rxAppend_rlen (w : RxWork) (bs : List Byte) (h : w.rlen.toNat ≤ 254) :
    (rxAppend w bs).rlen.toNat = w.rlen.toNat + min (254 - w.rlen.toNat) bs.length := by
  induction bs generalizing w with
  | nil => simp [rxAppend]
  | cons b bs ih =>
    by_cases hl : w.rlen.toNat < 254
    · rw [rxAppend_cons_kept hl, ih _ (by simp only [toNat_succ_of_lt hl]; omega)]
      simp only [toNat_succ_of_lt hl, List.length_cons]; omega
    · rw [rxAppend_cons_dropped hl, ih { w with dropped := w.dropped + 1 } h]
      simp only [List.length_cons]; omega

/-- The count of dropped bytes after the append. -/
theorem rxAppend_dropped (w : RxWork) (bs : List Byte) (h : w.rlen.toNat ≤ 254) :
    (rxAppend w bs).dropped = w.dropped + (bs.length - min (254 - w.rlen.toNat) bs.length) := by
  induction bs generalizing w with
  | nil => simp [rxAppend]
  | cons b bs ih =>
    by_cases hl : w.rlen.toNat < 254
    · rw [rxAppend_cons_kept hl, ih _ (by simp only [toNat_succ_of_lt hl]; omega)]
      simp only [toNat_succ_of_lt hl, List.length_cons]; omega
    · rw [rxAppend_cons_dropped hl, ih { w with dropped := w.dropped + 1 } h]
      simp only [List.length_cons]; omega

/-- The cells after the append: the kept bytes from offset `L` up, every other cell as before. -/
theorem read_rxAppend (w : RxWork) (bs : List Byte) (h : w.rlen.toNat ≤ 254) (k : Nat) :
    Memory.read (rxAppend w bs).rbuf k =
      if w.rlen.toNat ≤ k ∧ k < 254 then (bs[k - w.rlen.toNat]?).getD (Memory.read w.rbuf k) else Memory.read w.rbuf k := by
  induction bs generalizing w with
  | nil => simp [rxAppend]
  | cons b bs ih =>
    by_cases hl : w.rlen.toNat < 254
    · rw [rxAppend_cons_kept hl, ih _ (by simp only [toNat_succ_of_lt hl]; omega)]
      simp only [toNat_succ_of_lt hl, Memory.read_write]
      rcases Nat.lt_trichotomy w.rlen.toNat k with hlt | heq | hgt
      · obtain ⟨d, rfl⟩ := Nat.exists_eq_add_of_le (show w.rlen.toNat + 1 ≤ k from hlt)
        have e1 : w.rlen.toNat + 1 + d - w.rlen.toNat = d + 1 := by omega
        have e2 : w.rlen.toNat + 1 + d - (w.rlen.toNat + 1) = d := by omega
        have e3 : ¬ w.rlen.toNat = w.rlen.toNat + 1 + d := by omega
        have e4 : w.rlen.toNat ≤ w.rlen.toNat + 1 + d := by omega
        simp [e1, e2, e3, e4]
      · have h1 : ¬ (k + 1 ≤ k) := by omega
        subst heq; simp [hl, h1]
      · have h1 : ¬ (w.rlen.toNat + 1 ≤ k) := by omega
        have h2 : ¬ (w.rlen.toNat ≤ k) := by omega
        have h3 : ¬ w.rlen.toNat = k := by omega
        simp [h1, h2, h3]
    · rw [rxAppend_cons_dropped hl, ih { w with dropped := w.dropped + 1 } h]
      have h1 : ¬ (w.rlen.toNat ≤ k ∧ k < 254) := by omega
      simp [h1]

/-- The accumulated bytes after the append: `a1` of R95. -/
theorem acc_rxAppend (w : RxWork) (bs : List Byte) (h : w.rlen.toNat ≤ 254) :
    Memory.slice (rxAppend w bs).rbuf 0 (rxAppend w bs).rlen.toNat =
      appended (Memory.slice w.rbuf 0 w.rlen.toNat) bs := by
  apply List.ext_getElem?
  intro k
  rw [Memory.getElem?_slice, rxAppend_rlen w bs h, Nat.zero_add, read_rxAppend w bs h, appended, List.getElem?_append,
    Memory.getElem?_slice, Memory.length_slice, List.getElem?_take]
  by_cases h1 : k < w.rlen.toNat
  · have h2 : k < w.rlen.toNat + min (254 - w.rlen.toNat) bs.length := by omega
    have h3 : ¬ (w.rlen.toNat ≤ k ∧ k < 254) := by omega
    simp [h1, h2, h3]
  · by_cases h4 : k - w.rlen.toNat < bs.length ∧ k < 254
    · have h2 : k < w.rlen.toNat + min (254 - w.rlen.toNat) bs.length := by omega
      have h5 : k - w.rlen.toNat < 254 - w.rlen.toNat := by omega
      have h6 : w.rlen.toNat ≤ k ∧ k < 254 := by omega
      simp [h1, h2, h5, h6, h4.1]
    · have h2 : ¬ k < w.rlen.toNat + min (254 - w.rlen.toNat) bs.length := by omega
      have h7 : 254 - w.rlen.toNat ≤ k - w.rlen.toNat ∨ bs.length ≤ k - w.rlen.toNat := by omega
      simp only [h1, h2, if_false, Config.rbufCap]
      symm
      split
      · exact List.getElem?_eq_none (by omega)
      · rfl

theorem rxAppend_wf {w : RxWork} (h : w.rbuf.wf) (bs : List Byte) : (rxAppend w bs).rbuf.wf := by
  induction bs generalizing w with
  | nil => exact h
  | cons b bs ih =>
    unfold rxAppend
    split
    · exact ih (Memory.write_wf h _ _)
    · exact ih h

theorem rxAppend_within {w : RxWork} (h : w.rbuf.within 254) (bs : List Byte) : (rxAppend w bs).rbuf.within 254 := by
  induction bs generalizing w with
  | nil => exact h
  | cons b bs ih =>
    unfold rxAppend
    split
    · exact ih (Memory.write_within h ‹_› _)
    · exact ih h

/-! ### Step 3: strip (R86) -/

theorem leadRun_eq_lead (m : Memory) (n k : Nat) : leadRun m n k = lead (Memory.slice m k n) := by
  induction n generalizing k with
  | zero => rfl
  | succ n ih => simp only [leadRun, Memory.slice_succ, lead, ih]

/-- The cells after the shift: each of the `n` cells from `t` up holds what stood `s` above it. -/
theorem read_shiftDown (s n t : Nat) (m : Memory) (k : Nat) :
    Memory.read (shiftDown s n t m) k = if t ≤ k ∧ k < t + n then Memory.read m (k + s) else Memory.read m k := by
  induction n generalizing t m with
  | zero =>
    have h : ¬ (t ≤ k ∧ k < t + 0) := by omega
    simp only [h, if_false]; rfl
  | succ n ih =>
    rw [shiftDown, ih]
    rcases Nat.lt_trichotomy t k with hlt | heq | hgt
    · by_cases h2 : k < t + (n + 1)
      · rw [if_pos ⟨hlt, by omega⟩, if_pos ⟨by omega, h2⟩, Memory.read_write_other (by omega)]
      · rw [if_neg (by omega), if_neg (by omega), Memory.read_write_other (by omega)]
    · subst heq
      rw [if_neg (by omega), if_pos ⟨Nat.le_refl t, by omega⟩, Memory.read_write_same]
    · rw [if_neg (by omega), if_neg (by omega), Memory.read_write_other (by omega)]

theorem shiftDown_wf {m : Memory} (h : m.wf) (s n t : Nat) : (shiftDown s n t m).wf := by
  induction n generalizing t m with
  | zero => exact h
  | succ n ih => exact ih (Memory.write_wf h _ _) _

theorem shiftDown_within {m : Memory} {cap : Nat} (h : m.within cap) (s n t : Nat) (ht : t + n ≤ cap) :
    (shiftDown s n t m).within cap := by
  induction n generalizing t m with
  | zero => exact h
  | succ n ih => exact ih (Memory.write_within h (by omega) _) _ (by omega)

@[simp] theorem rxStrip_dropped (w : RxWork) : (rxStrip w).dropped = w.dropped := rfl

theorem rxStrip_rlen (w : RxWork) :
    (rxStrip w).rlen.toNat = w.rlen.toNat - lead (Memory.slice w.rbuf 0 w.rlen.toNat) := by
  have h1 := lead_le_length (Memory.slice w.rbuf 0 w.rlen.toNat)
  rw [Memory.length_slice] at h1
  have h2 := w.rlen.isLt
  simp only [rxStrip, leadRun_eq_lead, BitVec.toNat_sub, BitVec.toNat_ofNat]
  omega

/-- The accumulated bytes after the strip: `a2` of R95. -/
theorem acc_rxStrip (w : RxWork) :
    Memory.slice (rxStrip w).rbuf 0 (rxStrip w).rlen.toNat =
      (Memory.slice w.rbuf 0 w.rlen.toNat).drop (lead (Memory.slice w.rbuf 0 w.rlen.toNat)) := by
  have h1 := lead_le_length (Memory.slice w.rbuf 0 w.rlen.toNat)
  rw [Memory.length_slice] at h1
  rw [rxStrip_rlen, Memory.drop_slice _ _ _ _ h1]
  apply Memory.slice_congr
  intro k hk
  simp only [rxStrip, leadRun_eq_lead, read_shiftDown]
  rw [if_pos (by omega), Nat.zero_add, Nat.zero_add, Nat.add_comm]

theorem read_rxStrip_of_le (w : RxWork) {k : Nat} (h : w.rlen.toNat ≤ k) :
    Memory.read (rxStrip w).rbuf k = Memory.read w.rbuf k := by
  simp only [rxStrip, read_shiftDown]
  rw [if_neg (by omega)]

theorem rxStrip_wf {w : RxWork} (h : w.rbuf.wf) : (rxStrip w).rbuf.wf := shiftDown_wf h _ _ _

theorem rxStrip_within {w : RxWork} {cap : Nat} (h : w.rbuf.within cap) (hl : w.rlen.toNat ≤ cap) :
    (rxStrip w).rbuf.within cap := shiftDown_within h _ _ _ (by omega)

/-! ### Step 4: the delimiter scan (R87) -/

theorem firstDelim_eq_first (m : Memory) (n k : Nat) :
    firstDelim m n k = (first (Memory.slice m k n)).map (· + k) := by
  induction n generalizing k with
  | zero => rfl
  | succ n ih =>
    simp only [firstDelim, Memory.slice_succ, first, ih]
    split
    · simp
    · cases first (Memory.slice m (k + 1) n) <;> simp; omega

theorem rxFind_eq_first (w : RxWork) : rxFind w = first (Memory.slice w.rbuf 0 w.rlen.toNat) := by
  rw [rxFind, firstDelim_eq_first]; simp

/-! ### Step 6: the chain walk (R89) -/

theorem rxWalk_stop {i : Nat} {c : Byte} (h : ¬ c.toNat < i) (n : Nat) (m : Memory) : rxWalk i n m c = m := by
  cases n <;> simp [rxWalk, h]

theorem rxWalk_go {i : Nat} {c : Byte} (h : c.toNat < i) (n : Nat) (m : Memory) :
    rxWalk i (n + 1) m c =
      rxWalk i n (Memory.write m c.toNat Config.delim) (Memory.read m c.toNat) := by
  simp [rxWalk, h]

/-- The walk on the first `i` cells is the walk of R95. -/
theorem slice_rxWalk (i n : Nat) (m : Memory) (c : Byte) :
    Memory.slice (rxWalk i n m c) 0 i = walk i n (Memory.slice m 0 i) c := by
  induction n generalizing m c with
  | zero => rfl
  | succ n ih =>
    by_cases h : c.toNat < i
    · rw [rxWalk_go h, ih, walk, if_pos h, Memory.slice_write_inside]
      congr 1
      rw [List.getD_eq_getElem?_getD, Memory.getElem?_slice, if_pos h]; simp
    · rw [rxWalk_stop h, walk, if_neg h]

/-- The walk touches no cell at or beyond the delimiter. -/
theorem read_rxWalk_of_le {i k : Nat} (h : i ≤ k) (n : Nat) (m : Memory) (c : Byte) :
    Memory.read (rxWalk i n m c) k = Memory.read m k := by
  induction n generalizing m c with
  | zero => rfl
  | succ n ih =>
    by_cases hc : c.toNat < i
    · rw [rxWalk_go hc, ih, Memory.read_write_other (by omega)]
    · rw [rxWalk_stop hc]

theorem rxWalk_wf {m : Memory} (h : m.wf) (i n : Nat) (c : Byte) : (rxWalk i n m c).wf := by
  induction n generalizing m c with
  | zero => exact h
  | succ n ih =>
    by_cases hc : c.toNat < i
    · rw [rxWalk_go hc]; exact ih (Memory.write_wf h _ _) _
    · rw [rxWalk_stop hc]; exact h

theorem rxWalk_within {m : Memory} {cap i : Nat} (h : m.within cap) (hi : i ≤ cap) (n : Nat) (c : Byte) :
    (rxWalk i n m c).within cap := by
  induction n generalizing m c with
  | zero => exact h
  | succ n ih =>
    by_cases hc : c.toNat < i
    · rw [rxWalk_go hc]; exact ih (Memory.write_within h (by omega) _) _
    · rw [rxWalk_stop hc]; exact h

/-! ### Step 7: the judgement (R92) -/

theorem judge_short {i : Nat} (h : i < 3) (v : Bool) : judge i v = .rejectShort := by simp [judge, h]
theorem judge_true {i : Nat} (h : ¬ i < 3) : judge i true = .deliver := by simp [judge, h]
theorem judge_false {i : Nat} (h : ¬ i < 3) : judge i false = .rejectCrc := by simp [judge, h]

/-- Everything steps 5 to 8 can do: empty the buffer and keep the rest, with one of the three results. -/
theorem rxJudge_cases (s : State) (w : RxWork) (i : Nat) :
    rxJudge s w i =
      s.finishRx { w with rbuf := restore i w.rbuf, rlen := 0 }
        (if i < 3 then .nothing .rejectShort w.dropped
         else if crcVerify s.cfg.crcInit (Memory.slice (restore i w.rbuf) 1 (i - 1)) then
           .delivered (Memory.slice (restore i w.rbuf) 1 (i - 3)) w.dropped
         else .nothing .rejectCrc w.dropped) := by
  unfold rxJudge
  by_cases h : i < 3
  · simp [judge_short h, h]
  · cases hv : crcVerify s.cfg.crcInit (Memory.slice (restore i w.rbuf) 1 (i - 1)) <;>
      simp [judge, h, hv]

/-! ### The whole operation -/

/-- INGEST stops only where `RLEN` is 255. -/
theorem ingestOp_illegal {s : State} (h : 254 < s.rlen.toNat) (bs : List Byte) : ingestOp bs s = .fault .rbufBounds := by
  simp [ingestOp, h]

/-- With a legal `RLEN`, INGEST goes on: it ends at step 2 when nothing is accumulated, else at the end of the scan. -/
theorem ingestOp_legal {s : State} (h : s.rlen.toNat ≤ 254) (bs : List Byte) :
    ingestOp bs s = .next
      (if (rxAppend ⟨s.rbuf, s.rlen, 0⟩ bs).rlen = 0 then
        s.finishRx (rxAppend ⟨s.rbuf, s.rlen, 0⟩ bs) (.nothing .noFrame (rxAppend ⟨s.rbuf, s.rlen, 0⟩ bs).dropped)
       else rxScan s (rxStrip (rxAppend ⟨s.rbuf, s.rlen, 0⟩ bs))) := by
  unfold ingestOp
  rw [if_neg (by simp only [Config.rbufCap]; omega)]
  dsimp only
  split <;> rfl

/-- Everything the scan can do. -/
theorem rxScan_cases (s : State) (w : RxWork) :
    (rxFind w = none ∧ rxScan s w = s.finishRx w (.nothing .noFrame w.dropped)) ∨
    (∃ i, rxFind w = some i ∧ rxScan s w = rxJudge s w i) := by
  unfold rxScan
  cases h : rxFind w with
  | none => exact .inl ⟨rfl, rfl⟩
  | some i => exact .inr ⟨i, rfl, rfl⟩

/-- Whatever INGEST does, it ends by storing working registers and returning one result. -/
theorem ingestOp_next {s t : State} {bs : List Byte} (h : ingestOp bs s = .next t) :
    s.rlen.toNat ≤ 254 ∧ ∃ w r, t = s.finishRx w r := by
  by_cases hl : 254 < s.rlen.toNat
  · rw [ingestOp_illegal hl] at h; cases h
  · rw [ingestOp_legal (by omega)] at h
    refine ⟨by omega, ?_⟩
    injection h with h
    split at h
    · exact ⟨_, _, h.symm⟩
    · rcases rxScan_cases s (rxStrip (rxAppend ⟨s.rbuf, s.rlen, 0⟩ bs)) with ⟨-, h2⟩ | ⟨i, -, h2⟩
      · exact ⟨_, _, by rw [← h, h2]⟩
      · exact ⟨_, _, by rw [← h, h2, rxJudge_cases]⟩

end Sys2Proof.Machine
end

