-- ==== Sys2Proof/Laws/Step.lean ====
section
/-!
SUPPORT. What one step can do, said once: the cases of `step`, of an operation the host can issue, and of a sequence of
operations.
-/

namespace Sys2Proof.Machine

open Sys2Proof.Spec

@[simp] theorem andThen_next (s : State) (f : State → Host.Outcome State Fault Refusal) : andThen (.next s) f = f s := rfl
@[simp] theorem andThen_fault (r : Fault) (f : State → Host.Outcome State Fault Refusal) :
    andThen (.fault r) f = .fault r := rfl
@[simp] theorem andThen_refused (r : Refusal) (f : State → Host.Outcome State Fault Refusal) :
    andThen (.refused r) f = .refused r := rfl

/-- If one operation after another answers a next state, both did. -/
theorem andThen_eq_next {o : Host.Outcome State Fault Refusal} {f : State → Host.Outcome State Fault Refusal} {t : State}
    (h : andThen o f = .next t) : ∃ s, o = .next s ∧ f s = .next t := by
  cases o with
  | next s => exact ⟨s, rfl, h⟩
  | fault r => cases h
  | refused r => cases h

theorem takeCommand_nil {s : State} (h : s.cmds = []) : takeCommand s = none := by simp [takeCommand, h]

theorem takeCommand_cons {s : State} {c : Command} {rest : List Command} (h : s.cmds = c :: rest) :
    takeCommand s = some (c, { s with cmds := rest }) := by simp [takeCommand, h]

/-- A step that goes on: nothing was issued and nothing changed, or the oldest command was performed. -/
theorem step_next {s t : State} (h : step s = .next t) :
    (s.cmds = [] ∧ t = s) ∨
    (∃ c rest i, s.cmds = c :: rest ∧ decode c = .ok i ∧ exec i { s with cmds := rest } = .next t) := by
  cases hc : s.cmds with
  | nil =>
    rw [step, takeCommand_nil hc] at h
    exact .inl ⟨rfl, (Host.Outcome.next.inj h).symm⟩
  | cons c rest =>
    rw [step, takeCommand_cons hc] at h
    cases hd : decode c with
    | error e => simp [hd] at h
    | ok i => exact .inr ⟨c, rest, i, rfl, hd, by simpa [hd] using h⟩

/-- What the decoder gives is an operation the host can issue. -/
theorem decode_ok_cases {c : Command} {i : Instr} (h : decode c = .ok i) :
    i = .reset ∨ (∃ p, i = .encode p) ∨ (∃ b, i = .ingest b) := by
  unfold decode at h
  split at h
  · split at h
    · exact .inl (Except.ok.inj h).symm
    · cases h
  · split at h
    · split at h
      · exact .inr (.inl ⟨_, (Except.ok.inj h).symm⟩)
      · cases h
    · split at h
      · split at h
        · exact .inr (.inr ⟨_, (Except.ok.inj h).symm⟩)
        · cases h
      · cases h

@[simp] theorem decode_resetCommand : decode resetCommand = .ok .reset := by simp [decode, resetCommand]
@[simp] theorem decode_encodeCommand (p : List Byte) : decode (encodeCommand p) = .ok (.encode p) := by
  simp [decode, encodeCommand]
@[simp] theorem decode_ingestCommand (b : List Byte) : decode (ingestCommand b) = .ok (.ingest b) := by
  simp [decode, ingestCommand]

end Sys2Proof.Machine
end

