-- ==== Sys2Proof/Laws/PerInstr.lean ====
section
/-!
SUPPORT. The family `Commands`, one lemma per constructor of `Instr`: every command an operation is issued by has a command code of
its own (not the reserved one) and a length field that is the length of its byte string.
-/

namespace Sys2Proof.Laws.Commands

/-- Every command of the operation is one the decoder can accept: its code is not the reserved one and its length is right. -/
def Statement (i : Instr) : Prop := ∀ c ∈ encode i, c.op ≠ 0b11#2 ∧ c.data.length = c.length

theorem reset : Statement .reset := by simp [Statement, encode, resetCommand]
theorem encode (pin : List Byte) : Statement (.encode pin) := by simp [Statement, Sys2Proof.encode, encodeCommand]
theorem ingest (rxin : List Byte) : Statement (.ingest rxin) := by simp [Statement, Sys2Proof.encode, ingestCommand]
theorem reserved : Statement .reserved := by simp [Statement, Sys2Proof.encode]
theorem crcPartial (prior : Word) (bytes : List Byte) : Statement (.crcPartial prior bytes) := by
  simp [Statement, Sys2Proof.encode]
theorem crcOf (bytes : List Byte) : Statement (.crcOf bytes) := by simp [Statement, Sys2Proof.encode]
theorem crcAppend (b : Buffer) (a n : Nat) : Statement (.crcAppend b a n) := by simp [Statement, Sys2Proof.encode]
theorem crcVerify (bytes : List Byte) : Statement (.crcVerify bytes) := by simp [Statement, Sys2Proof.encode]
theorem decode (w : List Byte) : Statement (.decode w) := by
  simp [Statement, Sys2Proof.encode, resetCommand, ingestCommand]
theorem feed (w : List Byte) (lens : List Nat) : Statement (.feed w lens) := by
  intro c hc
  obtain ⟨b, -, rfl⟩ := List.mem_map.1 hc
  simp [ingestCommand]
theorem poll : Statement .poll := by simp [Statement, Sys2Proof.encode, ingestCommand]

end Sys2Proof.Laws.Commands
end

