-- ==== Sys2Proof/Tests/Slice0.lean ====
section
/-!
SUPPORT. The model's own tests: ill-formed terms, decoding, one operation at a time on the spec's own vectors (expected values from
95_test_vectors.md, named by their number there), and for every statement with hypotheses a witness that meets them.
-/

namespace Sys2Proof.Tests

-- One theorem after another: many kernel evaluations at once would need more threads than the check's memory limit allows.
set_option Elab.async false

open Sys2Proof Sys2Proof.Machine Sys2Proof.Spec

/-! ### Helpers -/

/-- A framer with the given `CRC_INIT` and accumulated bytes, nothing issued. -/
def framer (init : Word) (acc : List Byte) : State :=
  { State.reset with cfg := ⟨init⟩, rbuf := Memory.writeBytes [] 0 acc, rlen := BitVec.ofNat 8 acc.length }

/-- The state an outcome goes on with. -/
def nextOf : Host.Outcome State Fault Refusal → Option State
  | .next s => some s
  | .fault _ => none
  | .refused _ => none

/-- The outputs of an operation. -/
def outputs (o : Host.Outcome State Fault Refusal) : Option (List OpResult) := (nextOf o).map (·.results)

/-- The accumulated bytes after an operation. -/
def accAfter (o : Host.Outcome State Fault Refusal) : Option (List Byte) := (nextOf o).map (·.acc)

/-- The refusal an outcome stops with. -/
def refusalIn : Host.Outcome State Fault Refusal → Option Refusal
  | .next _ => none
  | .fault _ => none
  | .refused r => some r

/-- The fault an outcome stops with. -/
def faultIn : Host.Outcome State Fault Refusal → Option Fault
  | .next _ => none
  | .fault f => some f
  | .refused _ => none

theorem exists_next (o : Host.Outcome State Fault Refusal) (p : State → Bool) (h : (nextOf o).any p = true) :
    ∃ t, o = .next t ∧ p t = true := by
  cases o with
  | next s => exact ⟨s, rfl, h⟩
  | fault f => exact absurd h (by simp [nextOf])
  | refused r => exact absurd h (by simp [nextOf])

/-- INGEST returned a payload and dropped nothing. -/
def delivers (p : List Byte) : List OpResult := [.rx ⟨true, some p.length, some p, 0, .deliver⟩]

/-- INGEST returned nothing, for the given cause, with `d` bytes dropped. -/
def nothing (c : RxCause) (d : Nat) : List OpResult := [.rx ⟨false, none, none, d, c⟩]

/-- A framer with room for one more byte: 253 zeros. -/
def filled253 : State := { State.reset with rlen := 253 }

theorem zeros_noDelimiter (n a : Nat) : ∀ b ∈ Memory.slice [] a n, b ≠ Config.delim := by
  induction n generalizing a with
  | zero => intro b h; cases h
  | succ n ih =>
    intro b h
    rcases List.mem_cons.1 h with rfl | h
    · exact (by decide : Memory.blank ≠ Config.delim)
    · exact ih (a + 1) b h

/-- ENCODE emitted the given bytes. -/
def emits (tx : List Byte) : List OpResult := [.enc ⟨true, some tx⟩]

/-- The frame of the source's scenario S1, `CRC_INIT = 0xFFFF`. -/
def frameS1 : List Byte := [0x07, 0x0C, 0x01, 0x02, 0x03, 0xAA, 0xC3, 0xFF]

/-- The frame of the empty payload (E1), `CRC_INIT = 0xFFFF`. -/
def frameE1 : List Byte := [0x01, 0x02, 0x03, 0xFF]

/-- A wedged framer, as in V24: 254 bytes without a delimiter. They are zeros here, which the model's memory does not list. -/
def wedged : State := { State.reset with rlen := 254 }

theorem wedged_isWedged : Wedged wedged := ⟨by decide, zeros_noDelimiter 254 0⟩

/-! ### WellFormed refuses an ill-formed term of each check -/

theorem test_wf_reserved : WellFormed .reserved = false := by decide
theorem test_wf_append_wbuf : WellFormed (.crcAppend .wbuf 1 253) = false ∧ WellFormed (.crcAppend .wbuf 1 252) = true := by
  decide
theorem test_wf_append_rbuf : WellFormed (.crcAppend .rbuf 0 253) = false ∧ WellFormed (.crcAppend .rbuf 0 252) = true := by
  decide
theorem test_wf_feed : WellFormed (.feed [1, 2, 3] [1, 1]) = false ∧ WellFormed (.feed [1, 2, 3] [1, 0, 2]) = true := by decide

/-! ### Decoding (30_encoding.md R57 to R60) and encoding -/

theorem test_decode_reset : decode ⟨0b00#2, 0, []⟩ = .ok .reset := by decide
theorem test_decode_encode : decode ⟨0b01#2, 2, [0xFF, 0xFF]⟩ = .ok (.encode [0xFF, 0xFF]) := by decide
theorem test_decode_ingest : decode ⟨0b10#2, 3, [0x07, 0x0C, 0x01]⟩ = .ok (.ingest [0x07, 0x0C, 0x01]) := by decide
theorem test_decode_reserved : decode ⟨0b11#2, 0, []⟩ = .error .reservedCode := by decide
theorem test_decode_length : decode ⟨0b01#2, 3, [0xFF, 0xFF]⟩ = .error .operandLength ∧
    decode ⟨0b10#2, 1, []⟩ = .error .operandLength := by decide
theorem test_decode_reset_operand : decode ⟨0b00#2, 0, [1]⟩ = .error .operandOnReset ∧
    decode ⟨0b00#2, 1, []⟩ = .error .operandOnReset := by decide
theorem test_table_words : decodeTableWord 8 0b00 = some .reset ∧ decodeTableWord 8 0b01 = some (.encode []) ∧
    decodeTableWord 8 0b10 = some (.ingest []) ∧ decodeTableWord 8 0b11 = none := by decide
theorem test_commands_decode : Sys2Proof.encode (.decode [1, 2]) = [⟨0b00#2, 0, []⟩, ⟨0b10#2, 2, [1, 2]⟩] := by decide
theorem test_commands_feed : Sys2Proof.encode (.feed [1, 2, 3] [1, 2]) = [⟨0b10#2, 1, [1]⟩, ⟨0b10#2, 2, [2, 3]⟩] := by decide
theorem test_commands_poll : Sys2Proof.encode .poll = [⟨0b10#2, 0, []⟩] := by decide
theorem test_commands_internal : Sys2Proof.encode (.crcPartial 0 [1]) = [] ∧ Sys2Proof.encode (.crcOf [1]) = [] ∧
    Sys2Proof.encode (.crcAppend .wbuf 1 2) = [] ∧ Sys2Proof.encode (.crcVerify [1]) = [] ∧
    Sys2Proof.encode .reserved = [] := by decide

/-! ### The host's words run as the first operation after reset -/

theorem test_step_reset : outputs (step (State.reset.withFetchWord 8 0)) = some [] := by decide
theorem test_step_encode : outputs (step (State.reset.withFetchWord 8 1)) = some (emits frameE1) := by decide +kernel
theorem test_step_ingest : outputs (step (State.reset.withFetchWord 8 2)) = some (nothing .noFrame 0) := by decide +kernel
theorem test_step_reserved : refusalIn (step (State.reset.withFetchWord 8 3)) = some .reservedCode := by decide

/-! ### ENCODE (95_test_vectors.md section 2) -/

/-- E5: adjacent occurrences, in the payload and not in the checksum. -/
theorem test_encode_e5 : outputs (exec (.encode [0xFF, 0xFF]) (framer 0xFFFF [0x07, 0x0C, 0x01])) =
    some (emits [0x01, 0x02, 0x05, 0x00, 0x00, 0xFF]) := by decide +kernel
/-- E20: 252 bytes fail and keep the accumulated bytes. -/
theorem test_encode_e20 : outputs (exec (.encode (List.replicate 252 0xAA)) (framer 0xFFFF [0x07, 0x0C, 0x01])) =
      some [.enc ⟨false, none⟩] ∧
    accAfter (exec (.encode (List.replicate 252 0xAA)) (framer 0xFFFF [0x07, 0x0C, 0x01])) = some [0x07, 0x0C, 0x01] := by
  decide +kernel
/-- E9, E12 (block A) and E15 (block B): occurrences in the payload, in both checksum bytes. -/
theorem test_frame_vectors :
    outputs (exec (.encode [0x01, 0xFF, 0x02, 0xFF, 0xFF, 0x03]) (framer 0xFFFF [])) =
      some (emits [0x02, 0x01, 0x04, 0x02, 0x05, 0x09, 0x03, 0x00, 0x88, 0xFF]) ∧
    outputs (exec (.encode [0x7B, 0x30]) (framer 0xFFFF [])) = some (emits [0x03, 0x7B, 0x30, 0x04, 0x05, 0xFF]) ∧
    outputs (exec (.encode [0x84, 0xCF]) (framer 0 [])) = some (emits [0x03, 0x84, 0xCF, 0x04, 0x05, 0xFF]) := by
  decide +kernel

/-! ### INGEST and RESET (95_test_vectors.md section 5) -/

/-- V21: a frame completed by a later chunk. -/
theorem test_ingest_v21 : outputs (exec (.ingest [0x02, 0x03, 0xAA, 0xC3, 0xFF]) (framer 0xFFFF [0x07, 0x0C, 0x01])) =
    some (delivers [0x0C, 0x01, 0x02, 0x03]) := by decide +kernel
/-- V3, V10, V11, V14, V16, V17: the empty payload; head 0; a bad checksum; a non-canonical head; a wrong restore; a cycle. -/
theorem test_ingest_outcomes :
    outputs (exec (.ingest frameE1) (framer 0xFFFF [])) = some (delivers []) ∧
    outputs (exec (.ingest [0x00, 0xFF]) (framer 0xFFFF [])) = some (nothing .rejectShort 0) ∧
    outputs (exec (.ingest [0x03, 0x12, 0x34, 0xFF]) (framer 0xFFFF [])) = some (nothing .rejectCrc 0) ∧
    outputs (exec (.ingest [0xFE, 0x0C, 0x01, 0x02, 0x03, 0xAA, 0xC3, 0xFF]) (framer 0xFFFF [])) =
      some (delivers [0x0C, 0x01, 0x02, 0x03]) ∧
    outputs (exec (.ingest [0x03, 0x0C, 0x01, 0x02, 0x03, 0xAA, 0xC3, 0xFF]) (framer 0xFFFF [])) =
      some (nothing .rejectCrc 0) ∧
    outputs (exec (.ingest [0x01, 0x02, 0x01, 0x05, 0x06, 0xFF]) (framer 0xFFFF [])) = some (nothing .rejectCrc 0) := by
  decide +kernel
/-- V26 and V28 (with zeros for the filler bytes): bytes that find no room; the room is taken before the strip. -/
theorem test_ingest_overflow :
    outputs (exec (.ingest [0x01, 0x02, 0x03, 0x04, 0x05, 0x06]) { State.reset with rlen := 250 }) =
      some (nothing .noFrame 2) ∧
    outputs (exec (.ingest (List.replicate 10 0xFF ++ List.replicate 250 0x00)) (framer 0xFFFF [])) =
      some (nothing .noFrame 6) ∧
    (nextOf (exec (.ingest (List.replicate 10 0xFF ++ List.replicate 250 0x00)) (framer 0xFFFF []))).map (·.rlen) =
      some 244 := by decide +kernel
/-- V24: a wedged framer drops even the delimiter. -/
theorem test_ingest_v24 : outputs (exec (.ingest [0xFF]) wedged) = some (nothing .noFrame 1) ∧
    (nextOf (exec (.ingest [0xFF]) wedged)).map (·.rlen) = some 254 := by decide +kernel
/-- The RESET vectors. -/
theorem test_reset : accAfter (exec .reset (framer 0xFFFF [0x07, 0x0C, 0x01])) = some [] ∧
    accAfter (exec .reset wedged) = some [] := by decide +kernel

/-! ### Pseudo-operations -/

/-- S2, block B: DECODE works from any accumulated bytes. -/
theorem test_decode_op : outputs (exec (.decode [0x01, 0x02, 0x05, 0x1D, 0x0F, 0xFF]) (framer 0 [0x11, 0x22])) =
    some (delivers [0xFF, 0xFF]) := by decide +kernel
/-- P4b: two frames in two chunks are both delivered. -/
theorem test_feed_op : outputs (exec (.feed (frameS1 ++ [0x01, 0x02, 0x05, 0x00, 0x00, 0xFF]) [8, 6]) (framer 0xFFFF [])) =
    some (delivers [0x0C, 0x01, 0x02, 0x03] ++ delivers [0xFF, 0xFF]) := by decide +kernel
/-- V7. -/
theorem test_poll_op : outputs (exec .poll (framer 0xFFFF [0x07, 0x0C])) = some (nothing .noFrame 0) ∧
    accAfter (exec .poll (framer 0xFFFF [0x07, 0x0C])) = some [0x07, 0x0C] := by decide +kernel
theorem test_reserved_op : refusalIn (exec .reserved (framer 0xFFFF [])) = some .reservedCode := by decide

/-! ### The checksum (95_test_vectors.md section 3) -/

/-- Chaining, block B. -/
theorem test_crc_partial : outputs (exec (.crcPartial 0x554C [0x02, 0x03]) (framer 0xFFFF [])) = some [.crc 0x2E03] := by
  decide +kernel
/-- The check values of "123456789" for both parameters. -/
theorem test_crc_of :
    outputs (exec (.crcOf [0x31, 0x32, 0x33, 0x34, 0x35, 0x36, 0x37, 0x38, 0x39]) (framer 0xFFFF [])) = some [.crc 0x29B1] ∧
    outputs (exec (.crcOf [0x31, 0x32, 0x33, 0x34, 0x35, 0x36, 0x37, 0x38, 0x39]) (framer 0 [])) = some [.crc 0x31C3] := by
  decide +kernel
/-- The CRC_APPEND example, in RBUF: `?? 0C 01 02 03` becomes `?? 0C 01 02 03 AA C3`. -/
theorem test_crc_append : outputs (exec (.crcAppend .rbuf 1 4) (framer 0xFFFF [0x99, 0x0C, 0x01, 0x02, 0x03])) =
      some [.crc 0xAAC3] ∧
    (nextOf (exec (.crcAppend .rbuf 1 4) (framer 0xFFFF [0x99, 0x0C, 0x01, 0x02, 0x03]))).map (Memory.slice ·.rbuf 0 7) =
      some [0x99, 0x0C, 0x01, 0x02, 0x03, 0xAA, 0xC3] := by decide +kernel
theorem test_crc_append_bounds : faultIn (exec (.crcAppend .wbuf 1 253) (framer 0xFFFF [])) = some .appendBounds := by decide
/-- Empty data with the right and the wrong parameter. -/
theorem test_crc_verify : outputs (exec (.crcVerify [0xFF, 0xFF]) (framer 0xFFFF [])) = some [.check true] ∧
    outputs (exec (.crcVerify [0xFF, 0xFF]) (framer 0 [])) = some [.check false] := by decide +kernel

/-! ### Witnesses: concrete states and operands that meet the hypotheses of each statement -/

theorem witness_CommandsDecodeToTheirOperations : HostOperation .reset = true ∧ HostOperation (.encode [0xFF]) = true ∧
    HostOperation (.ingest []) = true := by decide

theorem witness_DecodedCommandIsItsEncoding : decode ⟨0b00#2, 0, []⟩ = .ok .reset ∧
    decode ⟨0b01#2, 1, [0xFF]⟩ = .ok (.encode [0xFF]) ∧ decode ⟨0b10#2, 0, []⟩ = .ok (.ingest []) := by decide

theorem witness_StepPerformsTheNextCommand :
    (∃ s : State, s.cmds = [⟨0b10#2, 1, [0xFF]⟩] ∧ decode ⟨0b10#2, 1, [0xFF]⟩ = .ok (.ingest [0xFF])) ∧
    (∃ s : State, s.cmds = [⟨0b11#2, 0, []⟩] ∧ decode ⟨0b11#2, 0, []⟩ = .error .reservedCode) ∧
    (∃ s : State, s.cmds = [⟨0b01#2, 1, []⟩] ∧ decode ⟨0b01#2, 1, []⟩ = .error .operandLength) ∧
    (∃ s : State, s.cmds = []) :=
  ⟨⟨issueFirst State.reset _, rfl, by decide⟩, ⟨issueFirst State.reset _, rfl, by decide⟩,
    ⟨issueFirst State.reset _, rfl, by decide⟩, ⟨State.reset, rfl⟩⟩

theorem witness_TraceIsFoldOfOperations :
    ∀ i ∈ [Instr.reset, .ingest [0xFF], .encode [0x00]], HostOperation i = true := by decide

theorem witness_EveryIssuedOperationCompletes : LenLegal wedged ∧ wedged.rlen = 254 ∧
    (issueFirst wedged ⟨0b10#2, 1, [0xFF]⟩).cmds = [⟨0b10#2, 1, [0xFF]⟩] ∧
    decode ⟨0b10#2, 1, [0xFF]⟩ = .ok (.ingest [0xFF]) := by decide +kernel

theorem witness_StopsOutsideTheSpec : (∃ s : State, 254 < s.rlen.toNat) ∧ Buffer.rbuf.cap ≤ 0 + 252 + 1 + 1 ∧
    Buffer.rbuf.cap ≤ 0 + 253 + 1 ∧ Buffer.wbuf.cap ≤ 1 + 253 + 1 ∧ ([] : List Byte).length ≠ 1 ∧
    ((1 : Nat) ≠ 0 ∨ ([] : List Byte) ≠ []) ∧ ((0 : Nat) ≠ 0 ∨ [(1 : Byte)] ≠ []) :=
  ⟨⟨{ State.reset with rlen := 255 }, by decide⟩, by decide, by decide, by decide, by decide, by decide, by decide⟩

theorem witness_StepKeepsLengthLegal : ∃ s t, LenLegal s ∧ s.rlen = 254 ∧ step s = .next t := by
  obtain ⟨t, h, -⟩ := exists_next (step (issueFirst wedged ⟨0b10#2, 1, [0xFF]⟩)) (fun _ => true) (by decide +kernel)
  exact ⟨_, t, by decide +kernel, by decide +kernel, h⟩

/-- The three hypotheses of the invariant; a strip that removes bytes; a delimiter found behind the accumulated bytes. -/
theorem witness_StepKeepsNoDelimiter :
    (∃ s t, LenLegal s ∧ NoDelimiter s ∧ s.rlen ≠ 0 ∧ step s = .next t) ∧
    (LenLegal (framer 0 []) ∧ NoDelimiter (framer 0 []) ∧
      leadRun (rxAppend ⟨(framer 0 []).rbuf, (framer 0 []).rlen, 0⟩ [0xFF, 0x01]).rbuf
        (rxAppend ⟨(framer 0 []).rbuf, (framer 0 []).rlen, 0⟩ [0xFF, 0x01]).rlen.toNat 0 ≠ 0) ∧
    (LenLegal (framer 0 [7, 1]) ∧ NoDelimiter (framer 0 [7, 1]) ∧
      rxFind (rxStrip (rxAppend ⟨(framer 0 [7, 1]).rbuf, (framer 0 [7, 1]).rlen, 0⟩ [0xFF])) = some 2) := by
  refine ⟨?_, by decide +kernel, by decide +kernel⟩
  obtain ⟨t, h, -⟩ := exists_next (step (issueFirst (framer 0 [7, 1]) ⟨0b10#2, 1, [0xFF]⟩)) (fun _ => true) (by decide +kernel)
  exact ⟨_, t, by decide +kernel, by decide +kernel, by decide +kernel, h⟩

theorem witness_StepKeepsBuffersCanonical : ∃ s t, BuffersCanonical s ∧ s.rbuf ≠ [] ∧ step s = .next t := by
  obtain ⟨t, h, -⟩ := exists_next (step (issueFirst (framer 0 [7, 1]) ⟨0b01#2, 0, []⟩)) (fun _ => true) (by decide +kernel)
  exact ⟨_, t, by decide +kernel, by decide +kernel, h⟩

/-- Two states with the same content that differ in a stale cell of RBUF, in WBUF and in earlier outputs. -/
theorem witness_OutcomeIgnoresStaleCells :
    (∀ b a n, Instr.ingest frameE1 ≠ .crcAppend b a n) ∧
    SameContent (framer 0 [7, 1]) { framer 0 [7, 1] with rbuf := [(0, 7), (1, 1), (2, 9)], wbuf := [(0, 3)], results := [.crc 5] } ∧
    framer 0 [7, 1] ≠ { framer 0 [7, 1] with rbuf := [(0, 7), (1, 1), (2, 9)], wbuf := [(0, 3)], results := [.crc 5] } :=
  ⟨fun _ _ _ h => (by cases h), ⟨by decide +kernel, by decide +kernel, by decide +kernel, by decide +kernel⟩, by decide +kernel⟩

theorem witness_OversizeEncodeFails : 251 < (List.replicate 252 (0xAA : Byte)).length := by decide +kernel

/-- The largest and the smallest payload that ENCODE accepts: the hypothesis of EncodePostconditions, EncodeEqualsClosedForm,
ChainLinksAscend and EncodeFrame. -/
theorem witness_EncodePostconditions : (List.replicate 251 (0xFF : Byte)).length ≤ 251 ∧ ([] : List Byte).length ≤ 251 := by
  decide +kernel

theorem witness_EncodeEqualsClosedForm : (List.replicate 251 (0xFF : Byte)).length ≤ 251 := by decide +kernel

/-- The hypotheses of the clauses of ChainLinksAscend: the head and an occurrence; a link below the end of the chain; a cell that is
no occurrence; a body without one. -/
theorem witness_ChainLinksAscend : ([0xFF, 0x00] : List Byte).length ≤ 251 ∧
    (1 ≤ 1 ∧ (body 0 [0xFF, 0x00])[1 - 1]? = some 0xFF#8) ∧
    (frame 0 [0xFF, 0x00])[0]? = some 0x01#8 ∧ (1 : Byte).toNat < ([0xFF, 0x00] : List Byte).length + 3 ∧
    (body 0 [0xFF, 0x00])[1]? = some 0x00#8 ∧ (∀ b ∈ body 0 [0x00], b ≠ 0xFF#8) := by decide +kernel

theorem witness_EncodeFrame : (List.replicate 251 (0xFF : Byte)).length ≤ 251 ∧
    (List.replicate 251 (0xFF : Byte)).length + 4 ≤ 255 := by decide +kernel

theorem witness_EncodeTwiceEmitsTheSame : ∃ s t p, exec (.encode p) s = .next t ∧ p.length ≤ 251 := by
  obtain ⟨t, h, -⟩ := exists_next (exec (.encode [0xFF]) (framer 0 [7, 1])) (fun _ => true) (by decide +kernel)
  exact ⟨_, t, _, h, by decide⟩

/-- Legal lengths at both ends: the hypothesis of IngestEqualsSequenceForm, IngestResultFields, OverflowOnlyCounts, ReceiveFrame,
FeedIngestsEachChunk and IssuedExpansionRunsAsTheOperation. -/
theorem witness_IngestEqualsSequenceForm : LenLegal (framer 0 []) ∧ LenLegal wedged ∧ wedged.rlen = 254 := by decide +kernel

/-- The clauses of OutcomesAndAccumulator: sizes 251 and 252; an INGEST that finds no frame and one that judges one. -/
theorem witness_OutcomesAndAccumulator : (List.replicate 251 (0 : Byte)).length ≤ 251 ∧
    251 < (List.replicate 252 (0 : Byte)).length ∧ LenLegal (framer 0xFFFF [7]) ∧
    outputs (exec (.ingest [0x0C]) (framer 0xFFFF [7])) = some (nothing .noFrame 0) ∧
    outputs (exec (.ingest [0xFF]) (framer 0xFFFF [7])) = some (nothing .rejectShort 0) := by decide +kernel

/-- One state and chunk for each clause, the offsets 2 and 3 at which the clauses meet among them. -/
theorem witness_OutcomesDecidedInOrder : LenLegal (framer 0xFFFF []) ∧
    first (stripped [] [0x07]) = none ∧ first (stripped [] [0x05, 0x06, 0xFF]) = some 2 ∧
    (first (stripped [] [0x03, 0x12, 0x34, 0xFF]) = some 3 ∧
      crcOf 0xFFFF ((walk 3 4 ((stripped [] [0x03, 0x12, 0x34, 0xFF]).take 3) 0x03).drop 1) ≠ 0) ∧
    (first (stripped [] frameE1) = some 3 ∧ crcOf 0xFFFF ((walk 3 4 ((stripped [] frameE1).take 3) 0x01).drop 1) = 0) := by
  decide +kernel

theorem witness_IngestResultFields : LenLegal wedged ∧ outputs (exec (.ingest [0xFF]) wedged) = some (nothing .noFrame 1) ∧
    LenLegal (framer 0xFFFF []) ∧ outputs (exec (.ingest frameE1) (framer 0xFFFF [])) = some (delivers []) := by decide +kernel

theorem witness_OverflowOnlyCounts : LenLegal wedged ∧ LenLegal filled253 := by decide +kernel

theorem witness_ReceiveFrame : LenLegal (framer 0 [7, 1]) ∧ min 254 ((framer 0 [7, 1]).rlen.toNat + 1) ≤ 3 ∧
    LenLegal wedged ∧ min 254 (wedged.rlen.toNat + 8) ≤ 254 := by decide +kernel

theorem witness_WalkEndsWithinBound : (253 : Nat) ≤ 253 ∧ 253 + 1 ≤ 254 ∧ Memory.read [] 0 = 0 ∧ 2 ≤ 2 := by decide

theorem witness_WalkRestoresTheBody :
    (([0xFF, 0xFF] : List Byte).length ≤ 250 ∧
      Memory.slice (Memory.writeBytes [] 0 (frame 0xFFFF [0xFF, 0xFF])) 0 5 = (frame 0xFFFF [0xFF, 0xFF]).take 5) ∧
    (([] : List Byte).length ≤ 250 ∧
      Memory.slice (Memory.writeBytes [] 0 (frame 0xFFFF [])) 0 3 = (frame 0xFFFF []).take 3) := by decide +kernel

theorem witness_DeliveredPayloadVerifies : ∃ s t bs p r, exec (.ingest bs) s = .next t ∧ t.results = [.rx r] ∧ r.pout = some p := by
  obtain ⟨t, h, e⟩ := exists_next (exec (.ingest frameS1) (framer 0xFFFF []))
    (fun t => decide (t.results = [.rx ⟨true, some 4, some [0x0C, 0x01, 0x02, 0x03], 0, .deliver⟩])) (by decide +kernel)
  exact ⟨_, t, _, _, _, h, of_decide_eq_true e, rfl⟩

theorem witness_LargestDeliverablePayload :
    (∃ s t bs p r, exec (.ingest bs) s = .next t ∧ t.results = [.rx r] ∧ r.pout = some p) ∧
    (List.replicate 251 (0xFF : Byte)).length = 251 := by
  refine ⟨?_, by decide +kernel⟩
  obtain ⟨t, h, e⟩ := exists_next (exec (.ingest frameE1) (framer 0xFFFF []))
    (fun t => decide (t.results = [.rx ⟨true, some 0, some [], 0, .deliver⟩])) (by decide +kernel)
  exact ⟨_, t, _, _, _, h, of_decide_eq_true e, rfl⟩

/-- The longest payload with no stray delimiter, and the shortest with as many as fit. -/
theorem witness_RoundTrip : (List.replicate 250 (0xFF : Byte)).length ≤ 250 ∧ (framer 0xFFFF []).rlen = 0 ∧
    (framer 0xFFFF []).cfg = (framer 0xFFFF [7]).cfg ∧ 0 + (frame 0xFFFF (List.replicate 250 0xFF)).length ≤ 254 ∧
    ([] : List Byte).length ≤ 250 ∧ 250 + frameE1.length ≤ 254 := by decide +kernel

theorem witness_AnyChainEndIsAccepted : (framer 0 []).rlen = 0 ∧
    (([] : List Byte).length ≤ 250 ∧ ([] : List Byte).length + 3 ≤ (0x03 : Byte).toNat ∧ (0x03 : Byte) ≠ 0xFF#8) ∧
    ((List.replicate 250 (0 : Byte)).length ≤ 250 ∧ (List.replicate 250 (0 : Byte)).length + 3 ≤ (0xFE : Byte).toNat ∧
      (0xFE : Byte) ≠ 0xFF#8) := by decide +kernel

theorem witness_ForeignCrcInitIsRejected : (framer 0xFFFF []).rlen = 0 ∧ (0 : Word) ≠ (framer 0xFFFF []).cfg.crcInit ∧
    (List.replicate 250 (0 : Byte)).length ≤ 250 := by decide +kernel

/-- Empty chunks before and after, and the whole frame in one chunk. -/
theorem witness_ChunkingDoesNotMatter : (framer 0 []).rlen = 0 ∧ ([] : List Byte).length ≤ 250 ∧ 0 < 1 ∧
    [0, 3, 0].sum + 1 = ([] : List Byte).length + 4 ∧ ([] : List Nat).sum + 4 = ([] : List Byte).length + 4 := by decide

theorem witness_WedgeLastsUntilResetOrEncode :
    (LenLegal (framer 0 [7]) ∧ (∀ b ∈ (framer 0 [7]).acc ++ List.replicate 253 (0x55 : Byte), b ≠ 0xFF#8) ∧
      254 ≤ (framer 0 [7]).acc.length + (List.replicate 253 (0x55 : Byte)).length) ∧
    Wedged wedged ∧
    (∃ s t, Wedged s ∧ step s = .next t ∧ ¬ Wedged t ∧ s.cmds = [⟨0b00#2, 0, []⟩]) ∧
    (∃ s t, Wedged s ∧ step s = .next t ∧ ¬ Wedged t ∧ s.cmds = [⟨0b01#2, 0, []⟩]) := by
  have freed : ∀ t : State, decide (t.rlen = 0) = true → ¬ Wedged t := fun t h w => by
    have h0 := of_decide_eq_true h
    have w0 := w.1
    rw [h0] at w0
    exact absurd w0 (by decide)
  refine ⟨by decide +kernel, wedged_isWedged, ?_, ?_⟩
  · obtain ⟨t, h, e⟩ := exists_next (step (issueFirst wedged ⟨0b00#2, 0, []⟩)) (fun t => decide (t.rlen = 0)) (by decide +kernel)
    exact ⟨issueFirst wedged ⟨0b00#2, 0, []⟩, t, wedged_isWedged, h, freed t e, rfl⟩
  · obtain ⟨t, h, e⟩ := exists_next (step (issueFirst wedged ⟨0b01#2, 0, []⟩)) (fun t => decide (t.rlen = 0)) (by decide +kernel)
    exact ⟨issueFirst wedged ⟨0b01#2, 0, []⟩, t, wedged_isWedged, h, freed t e, rfl⟩

/-- A delimiter in the last cell of the buffer, and V22. -/
theorem witness_DelimiterEndsTheBody :
    (LenLegal filled253 ∧ NoDelimiter filled253 ∧ filled253.rlen ≠ 0 ∧ ([] : List Byte).length < 254 - filled253.rlen.toNat) ∧
    (LenLegal (framer 0 [7]) ∧ NoDelimiter (framer 0 [7]) ∧ (framer 0 [7]).rlen ≠ 0 ∧
      (List.replicate 252 (0xFF : Byte)).length < 254 - (framer 0 [7]).rlen.toNat) :=
  ⟨⟨by decide, zeros_noDelimiter 253 0, by decide, by decide⟩, by decide +kernel⟩

theorem witness_BytesAfterTheDelimiterAreLost : ∃ s t bs r, exec (.ingest bs) s = .next t ∧ t.results = [.rx r] ∧
    r.rxCause ≠ .noFrame := by
  obtain ⟨t, h, e⟩ := exists_next (exec (.ingest [0xFF]) (framer 0xFFFF [0x07, 0x0C, 0x01]))
    (fun t => decide (t.results = [.rx ⟨false, none, none, 0, .rejectCrc⟩])) (by decide +kernel)
  exact ⟨_, t, _, _, h, of_decide_eq_true e, by decide⟩

theorem witness_NextFrameAfterAJudgedOneIsDelivered : ∃ s t bs r, ∃ p : List Byte, exec (.ingest bs) s = .next t ∧
    t.results = [.rx r] ∧ r.rxCause ≠ .noFrame ∧ p.length = 250 := by
  obtain ⟨t, h, e⟩ := exists_next (exec (.ingest [0x05, 0xFF]) (framer 0xFFFF []))
    (fun t => decide (t.results = [.rx ⟨false, none, none, 0, .rejectShort⟩])) (by decide +kernel)
  exact ⟨_, t, _, _, List.replicate 250 0, h, of_decide_eq_true e, by decide, by decide +kernel⟩

theorem witness_FeedIngestsEachChunk : LenLegal wedged ∧ WellFormed (.feed [1, 2, 3] [0, 3]) = true := by decide +kernel

theorem witness_PollChangesNothing : (LenLegal wedged ∧ NoDelimiter wedged) ∧ LenLegal (framer 0 [7]) ∧ NoDelimiter (framer 0 [7]) :=
  ⟨⟨by decide, wedged_isWedged.2⟩, by decide +kernel⟩

theorem witness_IssuedExpansionRunsAsTheOperation : LenLegal wedged ∧ HostOperation (.encode [0xFF]) = true := by decide +kernel

/-- The last block that fits in each buffer, and `n = 0`. -/
theorem witness_CrcAppendWritesTwoCells : 0 + 252 + 1 < Buffer.rbuf.cap ∧ 1 + 252 + 1 < Buffer.wbuf.cap ∧
    253 + 0 + 1 < Buffer.wbuf.cap ∧ (0 : Nat) ≠ 253 + 0 := by decide

end Sys2Proof.Tests
end

section
/-!
I-LEN (10_state.md R24). INGEST is the one operation that makes `RLEN` grow, and it does so only in the append (R84), which stops
at the 254th cell; the strip (R86) and the judgement (R93) can only lower it. RESET and ENCODE set `RLEN` to 0 or keep it.
-/

namespace Sys2Proof.Machine

open Sys2Proof.Spec

/-! ### The arms of `exec` for what the host can issue -/

theorem exec_reset (s : State) : exec .reset s = .next (s.emptyRx.returns []) := rfl
theorem exec_encode (p : List Byte) (s : State) : exec (.encode p) s = encodeOp p s := rfl
theorem exec_ingest (bs : List Byte) (s : State) : exec (.ingest bs) s = ingestOp bs s := rfl

/-! ### The length under each step of INGEST -/

theorem rxAppend_rlen_le_rbufCap (w : RxWork) (bs : List Byte) (h : w.rlen.toNat ≤ Config.rbufCap) :
    (rxAppend w bs).rlen.toNat ≤ Config.rbufCap := by
  rw [rxAppend_rlen w bs h]
  simp only [Config.rbufCap] at h ⊢
  omega

theorem rxStrip_rlen_le (w : RxWork) : (rxStrip w).rlen.toNat ≤ w.rlen.toNat := by
  rw [rxStrip_rlen]
  exact Nat.sub_le _ _

theorem rxJudge_rlen (s : State) (w : RxWork) (i : Nat) : (rxJudge s w i).rlen = 0 := by
  rw [rxJudge_cases, State.finishRx_rlen]

theorem rxScan_rlen_le (s : State) (w : RxWork) : (rxScan s w).rlen.toNat ≤ w.rlen.toNat := by
  obtain ⟨-, hscan⟩ | ⟨i, -, hscan⟩ := rxScan_cases s w
  · rw [hscan, State.finishRx_rlen]
  · rw [hscan, rxJudge_rlen]
    exact Nat.zero_le _

/-! ### Each host operation keeps I-LEN -/

theorem ingestOp_keeps_lenLegal {s t : State} {bs : List Byte} (h : ingestOp bs s = .next t) : LenLegal t := by
  have hs : LenLegal s := (ingestOp_next h).1
  have happend := rxAppend_rlen_le_rbufCap ⟨s.rbuf, s.rlen, 0⟩ bs hs
  rw [ingestOp_legal hs] at h
  obtain rfl := Host.Outcome.next.inj h
  split
  · exact happend
  · calc (rxScan s (rxStrip (rxAppend ⟨s.rbuf, s.rlen, 0⟩ bs))).rlen.toNat
        ≤ (rxStrip (rxAppend ⟨s.rbuf, s.rlen, 0⟩ bs)).rlen.toNat := rxScan_rlen_le _ _
      _ ≤ (rxAppend ⟨s.rbuf, s.rlen, 0⟩ bs).rlen.toNat := rxStrip_rlen_le _
      _ ≤ Config.rbufCap := happend

/-- ENCODE empties the accumulator when the payload fits (R78), and leaves it alone when it does not (R74). -/
theorem encodeOp_rlen {s t : State} {p : List Byte} (h : encodeOp p s = .next t) : t.rlen = 0 ∨ t.rlen = s.rlen := by
  by_cases hp : p.length ≤ 251
  · rw [encodeOp_fits hp] at h
    obtain rfl := Host.Outcome.next.inj h
    exact .inl rfl
  · rw [encodeOp_oversize (by omega)] at h
    obtain rfl := Host.Outcome.next.inj h
    exact .inr rfl

theorem lenLegal_of_rlen_eq_zero {s : State} (h : s.rlen = 0) : LenLegal s := by
  simp [LenLegal, h]

theorem exec_decoded_keeps_lenLegal {c : Command} {i : Instr} {s t : State} (hd : decode c = .ok i) (hs : LenLegal s)
    (h : exec i s = .next t) : LenLegal t := by
  obtain rfl | ⟨p, rfl⟩ | ⟨bs, rfl⟩ := decode_ok_cases hd
  · rw [exec_reset] at h
    obtain rfl := Host.Outcome.next.inj h
    exact lenLegal_of_rlen_eq_zero rfl
  · rw [exec_encode] at h
    obtain hzero | hkept := encodeOp_rlen h
    · exact lenLegal_of_rlen_eq_zero hzero
    · rwa [LenLegal, hkept]
  · rw [exec_ingest] at h
    exact ingestOp_keeps_lenLegal h

theorem step_keeps_lenLegal {s t : State} (hs : LenLegal s) (h : step s = .next t) : LenLegal t := by
  obtain ⟨-, rfl⟩ | ⟨c, rest, i, -, hd, he⟩ := step_next h
  · exact hs
  · exact exec_decoded_keeps_lenLegal (s := { s with cmds := rest }) hd hs he

/-- Settles O11: of the three operations the host can issue, RESET and a successful ENCODE leave `RLEN = 0`, an oversized ENCODE
leaves it alone, and INGEST appends only up to the 254th cell and then only lowers it. -/
theorem stepKeepsLengthLegal : Obligations.StepKeepsLengthLegal :=
  ⟨lenLegal_of_rlen_eq_zero rfl, fun _ _ => step_keeps_lenLegal⟩

end Sys2Proof.Machine
end

section
/-!
The reserved code (30_encoding.md R60). A command that names no operation stops the step that takes it; code 11 is one, because
its code is none of the three the decoder knows and the operands are never looked at.
-/

namespace Sys2Proof.Machine

/-- A step refuses an issued command that names no operation, by the decoder's own reason and before anything is performed. -/
theorem step_of_decode_error {s : State} {c : Command} {rest : List Command} {e : DecodeError} (hc : s.cmds = c :: rest)
    (hd : decode c = .error e) : step s = .refused (refusalOf e) := by
  simp only [step, takeCommand_cons hc, hd]

theorem decode_reservedCode (n : Nat) (d : List Byte) : decode ⟨0b11#2, n, d⟩ = .error .reservedCode := by
  have hreset : 0b11#2 ≠ 0b00#2 := by decide
  have hencode : 0b11#2 ≠ 0b01#2 := by decide
  have hingest : 0b11#2 ≠ 0b10#2 := by decide
  rw [decode, if_neg hreset, if_neg hencode, if_neg hingest]

theorem exec_reserved (s : State) : exec .reserved s = .refused .reservedCode := rfl

theorem not_wellFormed_reserved : WellFormed .reserved = false := rfl

/-- Settles O2: no code the decoder knows is 11, so the decoder answers `reservedCode`, and the step passes that answer on. -/
theorem reservedCodeIsRefused : Obligations.ReservedCodeIsRefused := fun n d _ s =>
  ⟨decode_reservedCode n d, step_of_decode_error rfl (decode_reservedCode n d), exec_reserved s, not_wellFormed_reserved⟩

end Sys2Proof.Machine
end

section
/-!
The outcomes of INGEST (60_exceptions.md R104, R105, R109, R110). They are read off the sequence form of R95, which INGEST is shown
to compute: the judgement of a first delimiter depends on the stripped bytes and its offset only (`verdict`), and each outcome is
one case of it.
-/

namespace Sys2Proof.Spec

open Sys2Proof.Machine

/-- What INGEST checks (R90, R92) when the first delimiter of the stripped bytes `u` stands at `i`: the bytes before it after the
chain walk, less the head. -/
def restoredBlock (u : List Byte) (i : Nat) : List Byte := (walk i (i + 1) (u.take i) (u.headD 0)).drop 1

/-- The result of judging the stripped bytes `u` at their first delimiter `i` (R92, R109 b): length first, then residue. -/
def verdict (init : Word) (u : List Byte) (i dropped : Nat) : RxResult :=
  if i < 3 then .nothing .rejectShort dropped
  else if crcOf init (restoredBlock u i) = 0 then .delivered ((restoredBlock u i).take (i - 3)) dropped
  else .nothing .rejectCrc dropped

section Verdict

variable {init : Word} {u : List Byte} {i dropped : Nat}

theorem verdict_short (h : i < 3) : verdict init u i dropped = .nothing .rejectShort dropped := by
  rw [verdict, if_pos h]

theorem verdict_residue_zero (h : 3 ≤ i) (hcrc : crcOf init (restoredBlock u i) = 0) :
    verdict init u i dropped = .delivered ((restoredBlock u i).take (i - 3)) dropped := by
  rw [verdict, if_neg (Nat.not_lt.2 h), if_pos hcrc]

theorem verdict_residue_nonzero (h : 3 ≤ i) (hcrc : crcOf init (restoredBlock u i) ≠ 0) :
    verdict init u i dropped = .nothing .rejectCrc dropped := by
  rw [verdict, if_neg (Nat.not_lt.2 h), if_neg hcrc]

@[simp] theorem verdict_rxDropped : (verdict init u i dropped).rxDropped = dropped := by
  unfold verdict
  split
  · rfl
  · split <;> rfl

/-- A delimiter that was found is judged: the outcome is never `NO_FRAME`. -/
theorem verdict_rxCause_ne_noFrame : (verdict init u i dropped).rxCause ≠ .noFrame := by
  unfold verdict
  split
  · exact nofun
  · split <;> exact nofun

end Verdict

/-! ### INGEST on sequences, by what the scan finds (R95) -/

section IngestCases

variable {acc bs : List Byte}

theorem ingest_of_first_none (init : Word) (h : first (stripped acc bs) = none) :
    ingest init acc bs = (stripped acc bs, .nothing .noFrame (droppedCount acc bs)) := by
  rw [ingest, h]

theorem ingest_of_first_some (init : Word) {i : Nat} (h : first (stripped acc bs) = some i) :
    ingest init acc bs = ([], verdict init (stripped acc bs) i (droppedCount acc bs)) := by
  rw [ingest, h]
  dsimp only
  by_cases hshort : i < 3
  · rw [if_pos hshort, verdict_short hshort]
  · rw [if_neg hshort]
    by_cases hcrc : crcOf init (restoredBlock (stripped acc bs) i) = 0
    · rw [verdict_residue_zero (Nat.not_lt.1 hshort) hcrc]
      exact if_neg (not_not.2 hcrc)
    · rw [verdict_residue_nonzero (Nat.not_lt.1 hshort) hcrc]
      exact if_pos hcrc

theorem ingest_rxDropped (init : Word) (acc bs : List Byte) :
    (ingest init acc bs).2.rxDropped = droppedCount acc bs := by
  cases hfirst : first (stripped acc bs) with
  | none => rw [ingest_of_first_none init hfirst]; rfl
  | some i => rw [ingest_of_first_some init hfirst, verdict_rxDropped]

/-- Only `NO_FRAME` keeps the bytes; every judged delimiter empties the buffer (R110). -/
theorem ingest_acc (init : Word) (acc bs : List Byte) :
    (ingest init acc bs).1 = if (ingest init acc bs).2.rxCause = .noFrame then stripped acc bs else [] := by
  cases hfirst : first (stripped acc bs) with
  | none => rw [ingest_of_first_none init hfirst]; rfl
  | some i => rw [ingest_of_first_some init hfirst, if_neg verdict_rxCause_ne_noFrame]

theorem length_stripped_le_rbufCap (h : acc.length ≤ Config.rbufCap) : (stripped acc bs).length ≤ Config.rbufCap := by
  rw [stripped, List.length_drop, length_appended]
  omega

theorem stripped_of_appended_nil (h : appended acc bs = []) : stripped acc bs = [] := by rw [stripped, h]; rfl

end IngestCases

end Sys2Proof.Spec

namespace Sys2Proof.Machine

open Sys2Proof.Spec

/-! ### The machine's INGEST computes the sequence form -/

@[simp] theorem State.length_acc (s : State) : s.acc.length = s.rlen.toNat := Memory.length_slice _ _ _

theorem State.rlen_eq_zero_of_acc_nil {s : State} (h : s.acc = []) : s.rlen = 0 := by
  apply BitVec.eq_of_toNat_eq
  rw [← s.length_acc, h]
  rfl

/-- The bytes before the delimiter after the machine's walk, less the head, are the block the sequence form checks. -/
theorem slice_restore (m : Memory) {i n : Nat} (hpos : 1 ≤ i) (hi : i < n) :
    Memory.slice (restore i m) 1 (i - 1) = restoredBlock (Memory.slice m 0 n) i := by
  have hhead : (Memory.slice m 0 n).headD 0 = Memory.read m 0 := by
    obtain ⟨k, rfl⟩ := Nat.exists_eq_succ_of_ne_zero (Nat.ne_of_gt (Nat.zero_lt_of_lt hi))
    rfl
  rw [restoredBlock, hhead, Memory.take_slice _ _ _ _ (Nat.le_of_lt hi), ← slice_rxWalk, Memory.drop_slice _ _ _ _ hpos,
    restore]

theorem rxJudge_eq_verdict (s : State) (w : RxWork) {i : Nat} (hpos : 1 ≤ i) (hi : i < w.rlen.toNat) :
    rxJudge s w i = s.finishRx { w with rbuf := restore i w.rbuf, rlen := 0 }
      (verdict s.cfg.crcInit (Memory.slice w.rbuf 0 w.rlen.toNat) i w.dropped) := by
  have hpayload : Memory.slice (restore i w.rbuf) 1 (i - 3) =
      (restoredBlock (Memory.slice w.rbuf 0 w.rlen.toNat) i).take (i - 3) := by
    rw [← slice_restore w.rbuf hpos hi, Memory.take_slice _ _ _ _ (by omega)]
  rw [rxJudge_cases, slice_restore w.rbuf hpos hi, hpayload]
  simp only [verdict, crcVerify, decide_eq_true_eq]

/-- INGEST is the function of R95 on the accumulated bytes and the chunk. -/
theorem ingestOp_eq_ingest {s : State} (hs : LenLegal s) (bs : List Byte) :
    ∃ t, ingestOp bs s = .next t ∧ t.acc = (ingest s.cfg.crcInit s.acc bs).1 ∧
      t.results = [.rx (ingest s.cfg.crcInit s.acc bs).2] := by
  refine ⟨_, ingestOp_legal hs bs, ?_⟩
  have hacc := acc_rxAppend ⟨s.rbuf, s.rlen, 0⟩ bs hs
  have hdropped : (rxAppend ⟨s.rbuf, s.rlen, 0⟩ bs).dropped = droppedCount s.acc bs := by
    rw [rxAppend_dropped _ _ hs, droppedCount, s.length_acc, Nat.zero_add]
  generalize rxAppend ⟨s.rbuf, s.rlen, 0⟩ bs = w at hacc hdropped ⊢
  change _ = appended s.acc bs at hacc
  split
  case isTrue hempty =>
    have hnil : stripped s.acc bs = [] := stripped_of_appended_nil (by rw [← hacc, hempty]; rfl)
    rw [ingest_of_first_none _ (by rw [hnil]; rfl), hnil, State.finishRx_acc, hempty, hdropped]
    exact ⟨rfl, rfl⟩
  case isFalse =>
    have hstripped : Memory.slice (rxStrip w).rbuf 0 (rxStrip w).rlen.toNat = stripped s.acc bs := by
      rw [acc_rxStrip, hacc, stripped]
    obtain ⟨hfind, hscan⟩ | ⟨i, hfind, hscan⟩ := rxScan_cases s (rxStrip w) <;> rw [rxFind_eq_first, hstripped] at hfind
    · rw [hscan, ingest_of_first_none _ hfind, State.finishRx_acc, hstripped, rxStrip_dropped, hdropped]
      exact ⟨rfl, rfl⟩
    · have hi : i < (rxStrip w).rlen.toNat := by
        rw [← Memory.length_slice (rxStrip w).rbuf 0 (rxStrip w).rlen.toNat, hstripped]
        exact first_lt_length hfind
      rw [hscan, rxJudge_eq_verdict s _ (first_pos_of_stripped hfind) hi, ingest_of_first_some _ hfind, hstripped,
        rxStrip_dropped, hdropped]
      exact ⟨rfl, rfl⟩

/-- Settles O23: RESET and ENCODE by their whole-state equations, INGEST by the outcome of its sequence form. -/
theorem outcomesAndAccumulator : Obligations.OutcomesAndAccumulator := by
  refine fun s => ⟨⟨_, exec_reset s, rfl⟩, fun p hp => ⟨_, encodeOp_fits hp s, rfl⟩,
    fun p hp => ⟨_, encodeOp_oversize hp s, rfl⟩, fun bs hs => ?_⟩
  obtain ⟨t, hexec, hacc, hresults⟩ := ingestOp_eq_ingest hs bs
  rw [ingest_acc] at hacc
  exact ⟨t, _, hexec, hresults, fun hcause => by rw [hacc, if_pos hcause], fun hcause => by rw [hacc, if_neg hcause]⟩

/-- Settles O24: the scan of the stripped bytes decides between `NO_FRAME` and a judgement, and the judgement is `verdict`. -/
theorem outcomesDecidedInOrder : Obligations.OutcomesDecidedInOrder := by
  intro s bs hs
  obtain ⟨t, hexec, hacc, hresults⟩ := ingestOp_eq_ingest hs bs
  refine ⟨t, _, hexec, hresults, ingest_rxDropped _ _ _, fun hnone => ?_, fun i hsome => ?_⟩
  · rw [ingest_of_first_none _ hnone]
    rfl
  · rw [ingest_of_first_some _ hsome] at hacc ⊢
    have hle : i ≤ 253 := Nat.le_of_lt_succ <|
      calc i < (stripped s.acc bs).length := first_lt_length hsome
        _ ≤ 254 := length_stripped_le_rbufCap (s.length_acc.trans_le hs)
    refine ⟨first_pos_of_stripped hsome, hle, t.rlen_eq_zero_of_acc_nil hacc, fun hshort => ?_, fun hlong hcrc => ?_,
      fun hlong hcrc => ?_⟩
    · rw [verdict_short hshort]
      exact ⟨rfl, rfl⟩
    · rw [verdict_residue_nonzero hlong hcrc]
      exact ⟨rfl, rfl⟩
    · rw [verdict_residue_zero hlong hcrc]
      rfl

end Sys2Proof.Machine
end

section
/-!
The five laws of the checksum (40_checksum.md R71). The register step is linear over XOR (`crcShift_xor`) and loses nothing,
because the polynomial's constant term is 1 (`crcShift_eq_zero`); a byte that meets an empty upper half of the register only
moves up (`crcShifts_lowByte`). Everything about the two checksum bytes follows.
-/

namespace Sys2Proof.Machine

/-! ### One shift is linear and injective (R64) -/

theorem crcShift_of_msb {r : Word} (h : r.getLsbD 15 = true) : crcShift r = r <<< 1 ^^^ Config.crcPoly := by
  rw [crcShift, h, if_pos rfl]

theorem crcShift_of_not_msb {r : Word} (h : r.getLsbD 15 = false) : crcShift r = r <<< 1 := by
  rw [crcShift, h, if_neg Bool.false_ne_true]

theorem crcShift_xor (x y : Word) : crcShift (x ^^^ y) = crcShift x ^^^ crcShift y := by
  have hcancel : ∀ a b p : Word, (a ^^^ p) ^^^ (b ^^^ p) = a ^^^ b := fun a b p => by
    rw [BitVec.xor_comm b p, BitVec.xor_assoc, ← BitVec.xor_assoc p p b, BitVec.xor_self, BitVec.zero_xor]
  have hmsb : (x ^^^ y).getLsbD 15 = (x.getLsbD 15 ^^ y.getLsbD 15) := BitVec.getLsbD_xor
  cases hx : x.getLsbD 15 <;> cases hy : y.getLsbD 15 <;> rw [hx, hy] at hmsb
  · rw [crcShift_of_not_msb hmsb, crcShift_of_not_msb hx, crcShift_of_not_msb hy, BitVec.shiftLeft_xor_distrib]
  · rw [crcShift_of_msb hmsb, crcShift_of_not_msb hx, crcShift_of_msb hy, BitVec.shiftLeft_xor_distrib, BitVec.xor_assoc]
  · rw [crcShift_of_msb hmsb, crcShift_of_msb hx, crcShift_of_not_msb hy, BitVec.shiftLeft_xor_distrib, BitVec.xor_assoc,
      BitVec.xor_assoc, BitVec.xor_comm Config.crcPoly]
  · rw [crcShift_of_not_msb hmsb, crcShift_of_msb hx, crcShift_of_msb hy, BitVec.shiftLeft_xor_distrib, hcancel]

/-- The constant term of the polynomial keeps bit 15 of the register: it is bit 0 after the shift. -/
theorem getLsbD_zero_crcShift (r : Word) : (crcShift r).getLsbD 0 = r.getLsbD 15 := by
  have hpoly : Config.crcPoly.getLsbD 0 = true := by decide
  cases h : r.getLsbD 15
  · rw [crcShift_of_not_msb h]; simp
  · rw [crcShift_of_msb h, BitVec.getLsbD_xor, hpoly]; simp

theorem crcShift_eq_zero {r : Word} (h : crcShift r = 0) : r = 0 := by
  have hmsb : r.getLsbD 15 = false := by rw [← getLsbD_zero_crcShift, h]; rfl
  rw [crcShift_of_not_msb hmsb] at h
  refine BitVec.eq_of_getLsbD_eq fun k hk => ?_
  by_cases hk15 : k = 15
  · rw [hk15, hmsb]; rfl
  · have hbit : (r <<< 1).getLsbD (k + 1) = false := by rw [h]; simp
    have hk16 : k + 1 < 16 := by omega
    rw [BitVec.getLsbD_shiftLeft] at hbit
    simpa [hk16] using hbit

theorem crcShifts_xor (n : Nat) (x y : Word) : crcShifts n (x ^^^ y) = crcShifts n x ^^^ crcShifts n y := by
  induction n generalizing x y with
  | zero => rfl
  | succ n ih => rw [crcShifts, crcShift_xor, ih]; rfl

theorem crcShifts_eq_zero {n : Nat} {r : Word} (h : crcShifts n r = 0) : r = 0 := by
  induction n generalizing r with
  | zero => exact h
  | succ n ih => exact crcShift_eq_zero (ih h)

theorem crcShifts_zero (n : Nat) : crcShifts n 0 = 0 := by
  induction n with
  | zero => rfl
  | succ n ih => exact ih

/-- A byte in the lower half of the register reaches the upper half unchanged: bit 15 stays clear on the way. -/
theorem crcShifts_lowByte (b : Byte) {n k : Nat} (h : k + n ≤ 8) :
    crcShifts n (b.setWidth 16 <<< k) = b.setWidth 16 <<< (k + n) := by
  induction n generalizing k with
  | zero => rfl
  | succ n ih =>
    have hclear : (b.setWidth 16 <<< k).getLsbD 15 = false := by
      have hhigh : b.getLsbD (15 - k) = false := BitVec.getLsbD_of_ge _ _ (by omega)
      simp [hhigh]
    rw [crcShifts, crcShift_of_not_msb hclear, ← BitVec.shiftLeft_add, ih (by omega), Nat.add_assoc, Nat.add_comm 1 n]

/-! ### Bytes -/

theorem crcByte_xor (r x : Word) (b : Byte) : crcByte (r ^^^ x) b = crcByte r b ^^^ crcShifts 8 x := by
  rw [crcByte, crcByte, ← crcShifts_xor, BitVec.xor_assoc, BitVec.xor_comm x, BitVec.xor_assoc]

theorem crcByte_injective (b : Byte) : Function.Injective (crcByte · b) := by
  intro x y hxy
  have hdiff : crcShifts 8 (x ^^^ y) = 0 := by
    have hcrc : crcByte y b ^^^ crcShifts 8 (x ^^^ y) = crcByte y b := by
      rw [← crcByte_xor, BitVec.xor_comm x, ← BitVec.xor_assoc, BitVec.xor_self, BitVec.zero_xor]
      exact hxy
    calc crcShifts 8 (x ^^^ y)
        = crcByte y b ^^^ (crcByte y b ^^^ crcShifts 8 (x ^^^ y)) := by
          rw [← BitVec.xor_assoc, BitVec.xor_self, BitVec.zero_xor]
      _ = 0 := by rw [hcrc, BitVec.xor_self]; rfl
  exact BitVec.xor_eq_zero_iff.1 (crcShifts_eq_zero hdiff)

theorem crcPartial_injective (bs : List Byte) : Function.Injective (crcPartial · bs) := by
  induction bs with
  | nil => exact Function.injective_id
  | cons b bs ih => exact ih.comp (crcByte_injective b)

theorem crcPartial_append (r : Word) (a b : List Byte) : crcPartial r (a ++ b) = crcPartial (crcPartial r a) b := by
  induction a generalizing r with
  | nil => rfl
  | cons x a ih => exact ih _

theorem crcPartial_eq_foldl (r : Word) (bs : List Byte) : crcPartial r bs = bs.foldl crcByte r := by
  induction bs generalizing r with
  | nil => rfl
  | cons b bs ih => exact ih _

/-! ### Two trailing bytes -/

theorem be16_eq_xor (h l : Byte) : be16 h l = h.setWidth 16 <<< 8 ^^^ l.setWidth 16 := by
  refine BitVec.eq_of_getLsbD_eq fun k hk => ?_
  rw [be16, BitVec.getLsbD_append, BitVec.getLsbD_xor, BitVec.getLsbD_shiftLeft, BitVec.getLsbD_setWidth,
    BitVec.getLsbD_setWidth]
  by_cases h8 : k < 8
  · simp [h8, hk]
  · have hl : l.getLsbD k = false := BitVec.getLsbD_of_ge _ _ (by omega)
    have h16 : k - 8 < 16 := by omega
    simp [h8, hk, hl, h16]

theorem be16_hi8_lo8 (v : Word) : be16 (hi8 v) (lo8 v) = v := by
  refine BitVec.eq_of_getLsbD_eq fun k hk => ?_
  rw [be16, BitVec.getLsbD_append, hi8, lo8, BitVec.getLsbD_extractLsb', BitVec.getLsbD_extractLsb']
  by_cases h8 : k < 8
  · simp [h8]
  · have hback : 8 + (k - 8) = k := by omega
    have hlt : k - 8 < 8 := by omega
    simp [h8, hback, hlt]

theorem crcByte_zeroByte (r : Word) : crcByte r 0#8 = crcShifts 8 r := by simp [crcByte]

theorem crcPartial_two_eq_zeros (r : Word) (h l : Byte) : crcPartial r [h, l] = crcPartial (r ^^^ be16 h l) [0#8, 0#8] := by
  have hlow : crcShifts 8 (l.setWidth 16) = l.setWidth 16 <<< 8 := by
    simpa using crcShifts_lowByte l (k := 0) (Nat.le_refl 8)
  calc crcPartial r [h, l]
      = crcShifts 8 (crcShifts 8 (r ^^^ h.setWidth 16 <<< 8) ^^^ l.setWidth 16 <<< 8) := rfl
    _ = crcShifts 8 (crcShifts 8 (r ^^^ be16 h l)) := by rw [← hlow, ← crcShifts_xor, be16_eq_xor, BitVec.xor_assoc]
    _ = crcPartial (r ^^^ be16 h l) [0#8, 0#8] := by simp only [crcPartial_cons, crcPartial_nil, crcByte_zeroByte]

theorem crcPartial_zeros_of_zero : crcPartial 0#16 [0#8, 0#8] = 0 := by
  simp only [crcPartial_cons, crcPartial_nil, crcByte_zeroByte]
  exact (congrArg (crcShifts 8) (crcShifts_zero 8)).trans (crcShifts_zero 8)

/-- The verifier is exact: a register goes to zero over two bytes just when they are the register's own (R71 law 4). -/
theorem crcPartial_two_eq_zero_iff (r : Word) (h l : Byte) : crcPartial r [h, l] = 0 ↔ be16 h l = r := by
  have hinj := (crcPartial_injective [0#8, 0#8]).eq_iff (a := r ^^^ be16 h l) (b := 0#16)
  rw [crcPartial_two_eq_zeros, ← crcPartial_zeros_of_zero]
  exact hinj.trans (BitVec.xor_eq_zero_iff.trans eq_comm)

theorem crcPartial_own_bytes (r : Word) : crcPartial r [hi8 r, lo8 r] = 0 :=
  (crcPartial_two_eq_zero_iff r _ _).2 (be16_hi8_lo8 r)

theorem crcVerify_append_two_iff (init : Word) (d : List Byte) (h l : Byte) :
    crcVerify init (d ++ [h, l]) = true ↔ be16 h l = crcOf init d := by
  rw [crcVerify, decide_eq_true_iff, crcOf, crcPartial_append]
  exact crcPartial_two_eq_zero_iff _ h l

/-- Settles O49: chaining is a fold over an append, and the rest is linearity and injectivity of the register step. -/
theorem checksumLaws : Obligations.ChecksumLaws :=
  have : Finite Word := Finite.of_injective BitVec.toFin BitVec.toFin_injective
  ⟨fun r a b => (crcPartial_append r a b).symm, crcPartial_two_eq_zeros,
    Finite.injective_iff_bijective.1 (crcPartial_injective [0#8, 0#8]), crcPartial_zeros_of_zero, crcPartial_own_bytes,
    crcPartial_two_eq_zero_iff, crcVerify_append_two_iff,
    fun init d => (crcVerify_append_two_iff init d _ _).2 (be16_hi8_lo8 _)⟩

/-! ### The primitives one by one (R64, R67 to R70) -/

theorem crcShifts_eq_iterate (n : Nat) (r : Word) : crcShifts n r = crcShift^[n] r := by
  induction n generalizing r with
  | zero => rfl
  | succ n ih => exact ih _

/-- Settles O44: the byte step is `crcShift` iterated eight times; the rule's examples are evaluated. -/
theorem crcByteStep : Obligations.CrcByteStep :=
  ⟨fun _ _ => crcShifts_eq_iterate 8 _, by decide, by decide, by decide⟩

theorem exec_crcPartial (prior : Word) (bytes : List Byte) (s : State) :
    exec (.crcPartial prior bytes) s = .next (s.returns [.crc (crcPartial prior bytes)]) := rfl
theorem exec_crcOf (bytes : List Byte) (s : State) :
    exec (.crcOf bytes) s = .next (s.returns [.crc (crcOf s.cfg.crcInit bytes)]) := rfl
theorem exec_crcVerify (bytes : List Byte) (s : State) :
    exec (.crcVerify bytes) s = .next (s.returns [.check (crcVerify s.cfg.crcInit bytes)]) := rfl

/-- Settles O45: CRC_PARTIAL returns the fold of the byte step. -/
theorem crcPartialReturnsTheRegister : Obligations.CrcPartialReturnsTheRegister :=
  ⟨fun s prior bytes => by rw [exec_crcPartial, crcPartial_eq_foldl]; rfl, fun s prior => exec_crcPartial prior [] s,
    by decide +kernel, by decide +kernel⟩

/-- Settles O46: CRC_OF is CRC_PARTIAL from the framer's `CRC_INIT`. -/
theorem crcOfStartsFromCrcInit : Obligations.CrcOfStartsFromCrcInit :=
  ⟨fun s bytes => exec_crcOf bytes s, fun s => exec_crcOf [] s, by decide +kernel,
    by decide +kernel, by decide +kernel, by decide +kernel⟩

/-- Settles O48: CRC_VERIFY compares CRC_OF of the block with 0. -/
theorem crcVerifyTestsTheResidue : Obligations.CrcVerifyTestsTheResidue :=
  ⟨fun s bytes => exec_crcVerify bytes s, fun _ => rfl, fun _ _ => rfl, by decide +kernel,
    by decide +kernel, by decide +kernel, by decide +kernel⟩

theorem execCrcAppend_fits {b : Buffer} {a n : Nat} (h : a + n + 1 < b.cap) (s : State) :
    execCrcAppend b a n s = .next ((s.setBuffer b (crcAppend s.cfg.crcInit (s.buffer b) a n).2).returns
      [.crc (crcOf s.cfg.crcInit (Memory.slice (s.buffer b) a n))]) := by
  simp only [execCrcAppend, appendFits, h, decide_true, if_true, crcAppend_value]

theorem execCrcAppend_outside {b : Buffer} {a n : Nat} (h : b.cap ≤ a + n + 1) (s : State) :
    execCrcAppend b a n s = .fault .appendBounds := by
  simp only [execCrcAppend, appendFits, Nat.not_lt.2 h, decide_false, Bool.false_eq_true, if_false]

@[simp] theorem State.buffer_returns (s : State) (rs : List OpResult) (b : Buffer) : (s.returns rs).buffer b = s.buffer b := by
  cases b <;> rfl

theorem State.buffer_setBuffer_other (s : State) (m : Memory) {b b' : Buffer} (h : b' ≠ b) :
    (s.setBuffer b m).buffer b' = s.buffer b' := by
  cases b
  · cases b'
    · exact absurd rfl h
    · rfl
  · cases b'
    · rfl
    · exact absurd rfl h

/-- Settles O47: where both cells exist, CRC_APPEND is the shared `crcAppend` on the named buffer, whose cells `read_crcAppend`
gives. -/
theorem crcAppendWritesTwoCells : Obligations.CrcAppendWritesTwoCells := by
  intro s b a n hfits
  refine ⟨_, _, execCrcAppend_fits hfits s, rfl, rfl, fun hn => by rw [hn]; rfl, ?_, ?_, fun k hhi hlo => ?_,
    fun b' hb => ?_, by simp, by simp, by simp⟩
  · simp [read_crcAppend]
  · simp [read_crcAppend]
  · simp [read_crcAppend, hhi, hlo]
  · rw [State.buffer_returns, State.buffer_setBuffer_other s _ hb]

end Sys2Proof.Machine
end

section
/-!
The frame of R48 as a sequence. A chain cell holds a function of the first delimiter behind it (`nextLink_eq_first`), so what a
cell holds, that none before the last is a delimiter, and that the links ascend are read off `first`. The chain walk of R89
undoes the transform cell by cell (`walk_chained`): the cells before the cursor are already restored.
-/

namespace Sys2Proof.Spec

open Sys2Proof.Machine

/-! ### Chain cells -/

theorem nextLink_eq_first (v : Byte) (j : Nat) (u : List Byte) :
    nextLink v j u = ((first u).map fun k => BitVec.ofNat 8 (j + k)).getD v := by
  induction u generalizing j with
  | nil => rfl
  | cons b bs ih =>
    by_cases hb : b = Config.delim
    · rw [nextLink, if_pos hb, hb, first_cons_delim]; rfl
    · rw [nextLink, if_neg hb, ih, first_cons_other hb]
      cases first bs with
      | none => rfl
      | some k => exact congrArg (BitVec.ofNat 8) (show j + 1 + k = j + (k + 1) by omega)

/-- The link to an occurrence: the first one at or after `j`. -/
theorem nextLink_of_first_some {v : Byte} {j k : Nat} {u : List Byte} (h : first u = some k) :
    nextLink v j u = BitVec.ofNat 8 (j + k) := by rw [nextLink_eq_first, h]; rfl

/-- The end of the chain. -/
theorem nextLink_of_first_none {v : Byte} {j : Nat} {u : List Byte} (h : first u = none) : nextLink v j u = v := by
  rw [nextLink_eq_first, h]; rfl

theorem getElem?_chained (v : Byte) (j : Nat) (u : List Byte) (k : Nat) :
    (chained v j u)[k]? =
      u[k]?.map fun b => if b = Config.delim then nextLink v (j + k + 1) (u.drop (k + 1)) else b := by
  induction u generalizing j k with
  | nil => rfl
  | cons b bs ih =>
    cases k with
    | zero => rfl
    | succ k =>
      have hj : j + 1 + k + 1 = j + (k + 1) + 1 := by omega
      simp only [chained, List.getElem?_cons_succ, ih, hj, List.drop_succ_cons]

theorem chained_of_no_delim (v : Byte) (j : Nat) {u : List Byte} (h : ∀ b ∈ u, b ≠ Config.delim) : chained v j u = u := by
  induction u generalizing j with
  | nil => rfl
  | cons b bs ih => rw [chained, if_neg (h b (by simp)), ih _ fun c hc => h c (by simp [hc])]

theorem toNat_ofNat_of_le {j : Nat} (h : j ≤ 255) : (BitVec.ofNat 8 j).toNat = j := by
  rw [BitVec.toNat_ofNat]
  exact Nat.mod_eq_of_lt (by omega)

/-- An offset inside a frame is never the delimiter byte (R46). -/
theorem ofNat_ne_delim {j : Nat} (h : j ≤ 254) : BitVec.ofNat 8 j ≠ Config.delim := fun heq => by
  have htoNat := congrArg BitVec.toNat heq
  rw [toNat_ofNat_of_le (by omega)] at htoNat
  exact absurd htoNat (by simp only [Config.delim, BitVec.reduceToNat]; omega)

section NoDelimiter

variable {v : Byte} {j : Nat} {u : List Byte}

theorem nextLink_ne_delim (hv : v ≠ Config.delim) (hj : j + u.length ≤ 255) : nextLink v j u ≠ Config.delim := by
  cases h : first u with
  | none => rwa [nextLink_of_first_none h]
  | some k =>
    have hk := first_lt_length h
    rw [nextLink_of_first_some h]
    exact ofNat_ne_delim (by omega)

theorem chained_ne_delim (hv : v ≠ Config.delim) (hj : j + u.length ≤ 255) :
    ∀ b ∈ chained v j u, b ≠ Config.delim := by
  induction u generalizing j with
  | nil => exact nofun
  | cons b bs ih =>
    rw [List.length_cons] at hj
    intro c hc
    rw [chained, List.mem_cons] at hc
    obtain rfl | hc := hc
    · split
      · exact nextLink_ne_delim hv (by omega)
      · assumption
    · exact ih (by omega) c hc

end NoDelimiter

/-! ### The frame without its delimiter -/

/-- A frame less its delimiter (R48): the head and the transformed cells. -/
def chainedBody (v : Byte) (init : Word) (p : List Byte) : List Byte :=
  nextLink v 1 (body init p) :: chained v 1 (body init p)

theorem frameEndingWith_eq (v : Byte) (init : Word) (p : List Byte) :
    frameEndingWith v init p = chainedBody v init p ++ [Config.delim] := rfl

@[simp] theorem length_chainedBody (v : Byte) (init : Word) (p : List Byte) :
    (chainedBody v init p).length = p.length + 3 := by simp [chainedBody]

@[simp] theorem length_frame (init : Word) (p : List Byte) : (frame init p).length = p.length + 4 := by simp [frame]

section Frame

variable {v : Byte} {init : Word} {p : List Byte}

theorem take_frameEndingWith : (frameEndingWith v init p).take (p.length + 3) = chainedBody v init p := by
  rw [frameEndingWith_eq, List.take_left' (length_chainedBody v init p)]

theorem chainedBody_ne_delim (hv : v ≠ Config.delim) (hp : p.length ≤ 252) :
    ∀ b ∈ chainedBody v init p, b ≠ Config.delim := by
  have hfit : 1 + (body init p).length ≤ 255 := by rw [length_body]; omega
  intro b hb
  rw [chainedBody, List.mem_cons] at hb
  obtain rfl | hb := hb
  · exact nextLink_ne_delim hv hfit
  · exact chained_ne_delim hv hfit b hb

theorem sentinel_ne_delim (hp : p.length ≤ 251) : BitVec.ofNat 8 (p.length + 3) ≠ Config.delim := ofNat_ne_delim (by omega)

/-- The sentinel ends the chain: it is not below the body's length. -/
theorem length_le_sentinel (hp : p.length ≤ 251) : p.length + 3 ≤ (BitVec.ofNat 8 (p.length + 3)).toNat := by
  rw [toNat_ofNat_of_le (by omega)]

theorem first_frameEndingWith_append (hv : v ≠ Config.delim) (hp : p.length ≤ 252) (rest : List Byte) :
    first (frameEndingWith v init p ++ rest) = some (p.length + 3) := by
  rw [frameEndingWith_eq, List.append_assoc, first_append_of_no_delim (chainedBody_ne_delim hv hp), List.singleton_append,
    first_cons_delim, length_chainedBody]
  simp

theorem lead_frameEndingWith_append (hv : v ≠ Config.delim) (hp : p.length ≤ 252) (rest : List Byte) :
    lead (frameEndingWith v init p ++ rest) = 0 :=
  lead_cons_other (chainedBody_ne_delim hv hp _ List.mem_cons_self) _

end Frame

/-! ### The walk undoes the chain (R89, R90) -/

/-- With the cells before `j` restored and the cursor at the next occurrence, the walk restores the rest. -/
theorem walk_chained {v : Byte} {i : Nat} (hv : i ≤ v.toNat) (hi : i ≤ 255) (pre u : List Byte) (n : Nat)
    (hlen : pre.length + u.length = i) (hn : occurrences u ≤ n) :
    walk i n (pre ++ chained v pre.length u) (nextLink v pre.length u) = pre ++ u := by
  induction u generalizing pre n with
  | nil =>
    cases n with
    | zero => rfl
    | succ n => rw [walk, if_neg (show ¬ (nextLink v pre.length []).toNat < i from Nat.not_lt.2 hv)]; rfl
  | cons b bs ih =>
    have hrest := ih (pre ++ [b])
    simp only [List.length_append, List.length_singleton, List.append_assoc, List.singleton_append] at hrest
    rw [List.length_cons] at hlen
    by_cases hb : b = Config.delim
    · subst hb
      obtain ⟨n, rfl⟩ : ∃ m, n = m + 1 := ⟨n - 1, by simp [occurrences] at hn; omega⟩
      have hcursor : (BitVec.ofNat 8 pre.length).toNat = pre.length := toNat_ofNat_of_le (by omega)
      rw [nextLink, if_pos rfl, walk, hcursor, if_pos (by omega), chained, if_pos rfl]
      have hset : (pre ++ nextLink v (pre.length + 1) bs :: chained v (pre.length + 1) bs).set pre.length Config.delim =
          pre ++ Config.delim :: chained v (pre.length + 1) bs := by simp
      have hget : (pre ++ nextLink v (pre.length + 1) bs :: chained v (pre.length + 1) bs).getD pre.length 0 =
          nextLink v (pre.length + 1) bs := by simp
      rw [hset, hget]
      exact hrest n (by omega) (by simpa [occurrences] using hn)
    · rw [nextLink, if_neg hb, chained, if_neg hb]
      exact hrest n (by omega) (by simpa [occurrences, hb] using hn)

theorem occurrences_le_length (u : List Byte) : occurrences u ≤ u.length := List.countP_le_length

/-- What INGEST checks of a frame is its untransformed body, whatever ends the chain from `i` up (R54, R90). -/
theorem restoredBlock_chainedBody {v : Byte} {init : Word} {p : List Byte} (hv : p.length + 3 ≤ v.toNat) (rest : List Byte) :
    restoredBlock (chainedBody v init p ++ rest) (p.length + 3) = body init p := by
  have hocc : occurrences (body init p) ≤ p.length + 3 + 1 :=
    (occurrences_le_length _).trans (by rw [length_body]; omega)
  have hwalk := walk_chained hv (by have := v.isLt; omega) [nextLink v 1 (body init p)] (body init p) (p.length + 3 + 1)
    (by rw [length_body, List.length_singleton]; omega) hocc
  rw [restoredBlock, List.take_left' (length_chainedBody v init p)]
  exact congrArg (List.drop 1) hwalk

theorem restoredBlock_frameEndingWith {v : Byte} {init : Word} {p : List Byte} (hv : p.length + 3 ≤ v.toNat)
    (rest : List Byte) :
    restoredBlock (frameEndingWith v init p ++ rest) (p.length + 3) = body init p := by
  rw [frameEndingWith_eq, List.append_assoc, restoredBlock_chainedBody hv]

/-! ### INGEST of a frame on sequences -/

/-- The checksum of the body of a frame for another `CRC_INIT` is zero just when the two agree: the checksum determines its
initial value. -/
theorem crcOf_body_eq_zero_iff (init init' : Word) (p : List Byte) : crcOf init' (body init p) = 0 ↔ init = init' := by
  have hverify := crcVerify_append_two_iff init' p (hi8 (crcOf init p)) (lo8 (crcOf init p))
  rw [crcVerify, decide_eq_true_iff, be16_hi8_lo8] at hverify
  exact hverify.trans (crcPartial_injective p).eq_iff

section IngestFrame

variable {v : Byte} {init : Word} {p : List Byte}

theorem verdict_frameEndingWith_own (hv : p.length + 3 ≤ v.toNat) (rest : List Byte) (d : Nat) :
    verdict init (frameEndingWith v init p ++ rest) (p.length + 3) d = .delivered p d := by
  have hblock := restoredBlock_frameEndingWith (init := init) hv rest
  rw [verdict_residue_zero (by omega) (by rw [hblock, crcOf_body_eq_zero_iff]), hblock, Nat.add_sub_cancel, body,
    List.take_left' rfl]

theorem verdict_frameEndingWith_foreign {init' : Word} (hne : init ≠ init') (hv : p.length + 3 ≤ v.toNat) (rest : List Byte)
    (d : Nat) : verdict init' (frameEndingWith v init p ++ rest) (p.length + 3) d = .nothing .rejectCrc d :=
  verdict_residue_nonzero (by omega) (by rwa [restoredBlock_frameEndingWith hv rest, Ne, crcOf_body_eq_zero_iff])

/-- Stray delimiters are stripped, and bytes behind the frame are cut at the end of the buffer: the first judged delimiter is
the frame's. -/
theorem ingest_frameEndingWith (init' : Word) (hv : v ≠ Config.delim) {n : Nat} (hfit : n + (p.length + 4) ≤ 254)
    (rest : List Byte) :
    ∃ rest', ingest init' [] (List.replicate n Config.delim ++ frameEndingWith v init p ++ rest) =
      ([], verdict init' (frameEndingWith v init p ++ rest') (p.length + 3) (n + (p.length + 4) + rest.length - 254)) := by
  have hp : p.length ≤ 252 := by omega
  have happended : appended [] (List.replicate n Config.delim ++ frameEndingWith v init p ++ rest) =
      List.replicate n Config.delim ++ (frameEndingWith v init p ++ rest.take (254 - (n + (p.length + 4)))) := by
    have hlen : (List.replicate n Config.delim ++ frameEndingWith v init p).length = n + (p.length + 4) := by simp
    rw [appended, List.nil_append, List.length_nil, Nat.sub_zero, List.take_append,
      List.take_of_length_le (by simpa only [hlen] using hfit), hlen, List.append_assoc]
  have hstripped : stripped [] (List.replicate n Config.delim ++ frameEndingWith v init p ++ rest) =
      frameEndingWith v init p ++ rest.take (254 - (n + (p.length + 4))) := by
    rw [stripped, happended, lead_replicate, lead_frameEndingWith_append hv hp, Nat.add_zero,
      List.drop_left' List.length_replicate]
  have hdropped : droppedCount [] (List.replicate n Config.delim ++ frameEndingWith v init p ++ rest) =
      n + (p.length + 4) + rest.length - 254 := by
    simp only [droppedCount, List.length_append, List.length_replicate, length_frameEndingWith, List.length_nil,
      Config.rbufCap]
    omega
  have hfirst : first (stripped [] (List.replicate n Config.delim ++ frameEndingWith v init p ++ rest)) =
      some (p.length + 3) := by
    rw [hstripped, first_frameEndingWith_append hv hp]
  exact ⟨_, by rw [ingest_of_first_some init' hfirst, hstripped, hdropped]⟩

/-- The same for a frame alone. -/
theorem ingest_frameEndingWith_alone (init' : Word) (hv : v ≠ Config.delim) (hp : p.length ≤ 250) :
    ∃ rest', ingest init' [] (frameEndingWith v init p) =
      ([], verdict init' (frameEndingWith v init p ++ rest') (p.length + 3) 0) := by
  obtain ⟨rest', h⟩ := ingest_frameEndingWith (init := init) (p := p) init' hv (n := 0) (by omega) []
  have hdropped : 0 + (p.length + 4) + ([] : List Byte).length - 254 = 0 := by rw [List.length_nil]; omega
  rw [hdropped, List.append_nil] at h
  exact ⟨rest', h⟩

/-- A chain that ends with any value from `i` up (R54). -/
theorem ingest_own_frameEndingWith (hne : v ≠ Config.delim) (hv : p.length + 3 ≤ v.toNat) (hp : p.length ≤ 250) :
    ingest init [] (frameEndingWith v init p) = ([], .delivered p 0) := by
  obtain ⟨rest', h⟩ := ingest_frameEndingWith_alone (init := init) init hne hp
  rw [h, verdict_frameEndingWith_own hv]

theorem ingest_foreign_frame {init' : Word} (hne : init ≠ init') (hp : p.length ≤ 250) :
    ingest init' [] (frame init p) = ([], .nothing .rejectCrc 0) := by
  obtain ⟨rest', h⟩ := ingest_frameEndingWith_alone (init := init) init' (sentinel_ne_delim (p := p) (by omega)) hp
  rw [frame, h, verdict_frameEndingWith_foreign hne (length_le_sentinel (by omega))]

theorem ingest_own_frame (hp : p.length ≤ 250) : ingest init [] (frame init p) = ([], .delivered p 0) :=
  ingest_own_frameEndingWith (sentinel_ne_delim (by omega)) (length_le_sentinel (by omega)) hp

end IngestFrame

end Sys2Proof.Spec
end

section
/-!
ENCODE and INGEST as whole operations. ENCODE answers the state `encoded`, whose output is the frame of R48; INGEST answers the
one state that `Ingested` describes. The obligations about frames on the wire use these two and the sequence facts only.
-/

namespace Sys2Proof.Machine

open Sys2Proof.Spec

/-! ### ENCODE (R79) -/

theorem slice_frameBuffer (init : Word) (m : Memory) (p : List Byte) :
    Memory.slice (frameBuffer init m p) 0 (p.length + 4) = frame init p := by
  refine List.ext_getElem (by simp) fun k h1 h2 => ?_
  rw [Memory.getElem_slice, Nat.zero_add, read_frameBuffer, List.getElem?_eq_getElem h2, Option.getD_some]

theorem read_frameBuffer_of_le {p : List Byte} {k : Nat} (h : p.length + 4 ≤ k) (init : Word) (m : Memory) :
    Memory.read (frameBuffer init m p) k = Memory.read m k := by
  rw [read_frameBuffer, List.getElem?_eq_none (by rwa [length_frame]), Option.getD_none]

/-- The state a successful ENCODE leaves (R78, R79). -/
def encoded (p : List Byte) (s : State) : State :=
  ({ s with wbuf := frameBuffer s.cfg.crcInit s.wbuf p }.emptyRx).returns [.enc ⟨true, some (frame s.cfg.crcInit p)⟩]

@[simp] theorem encoded_rbuf (p : List Byte) (s : State) : (encoded p s).rbuf = s.rbuf := rfl
@[simp] theorem encoded_rlen (p : List Byte) (s : State) : (encoded p s).rlen = 0 := rfl
@[simp] theorem encoded_wbuf (p : List Byte) (s : State) : (encoded p s).wbuf = frameBuffer s.cfg.crcInit s.wbuf p := rfl
@[simp] theorem encoded_cfg (p : List Byte) (s : State) : (encoded p s).cfg = s.cfg := rfl
@[simp] theorem encoded_cmds (p : List Byte) (s : State) : (encoded p s).cmds = s.cmds := rfl
@[simp] theorem encoded_acc (p : List Byte) (s : State) : (encoded p s).acc = [] := rfl
@[simp] theorem encoded_results (p : List Byte) (s : State) :
    (encoded p s).results = [.enc ⟨true, some (frame s.cfg.crcInit p)⟩] := rfl

theorem exec_encode_fits {p : List Byte} (h : p.length ≤ 251) (s : State) : exec (.encode p) s = .next (encoded p s) := by
  rw [exec_encode, encodeOp_fits h, slice_frameBuffer]
  rfl

theorem exec_encode_oversize {p : List Byte} (h : 251 < p.length) (s : State) :
    exec (.encode p) s = .next (s.returns [.enc .oversize]) := encodeOp_oversize h s

/-! ### INGEST (R94) -/

/-- What the receive side leaves alone (R13, R23, log entry 5): WBUF, the parameter, the issued commands, and the cells of RBUF
from offset `e` on. -/
structure RxFrame (s t : State) (e : Nat) : Prop where
  /-- WBUF. -/
  wbuf : t.wbuf = s.wbuf
  /-- The parameter. -/
  cfg : t.cfg = s.cfg
  /-- The issued commands. -/
  cmds : t.cmds = s.cmds
  /-- The cells of RBUF from `e` on. -/
  stale : ∀ a, e ≤ a → Memory.read t.rbuf a = Memory.read s.rbuf a

/-- What INGEST of `bs` in `s` leaves when it answers `t`: the accumulated bytes and results of R95, and its frame. -/
structure Ingested (s : State) (bs : List Byte) (t : State) : Prop where
  /-- The accumulated bytes of R95. -/
  acc : t.acc = (ingest s.cfg.crcInit s.acc bs).1
  /-- The results of R95. -/
  results : t.results = [.rx (ingest s.cfg.crcInit s.acc bs).2]
  /-- No cell from the end of what was appended on is written. -/
  frame : RxFrame s t (min 254 (s.rlen.toNat + bs.length))

/-- The scan leaves the cells alone, or restores the body in front of the delimiter it found. -/
theorem rxScan_rbuf_cases (s : State) (w : RxWork) :
    (rxScan s w).rbuf = w.rbuf ∨ ∃ i < w.rlen.toNat, (rxScan s w).rbuf = restore i w.rbuf := by
  obtain ⟨-, hscan⟩ | ⟨i, hfind, hscan⟩ := rxScan_cases s w
  · exact .inl (by rw [hscan, State.finishRx_rbuf])
  · rw [rxFind_eq_first] at hfind
    exact .inr ⟨i, (first_lt_length hfind).trans_eq (Memory.length_slice _ _ _), by
      rw [hscan, rxJudge_cases, State.finishRx_rbuf]⟩

theorem read_rxScan_of_le (s : State) (w : RxWork) {a : Nat} (ha : w.rlen.toNat ≤ a) :
    Memory.read (rxScan s w).rbuf a = Memory.read w.rbuf a := by
  obtain hrbuf | ⟨i, hi, hrbuf⟩ := rxScan_rbuf_cases s w
  · rw [hrbuf]
  · rw [hrbuf]
    exact read_rxWalk_of_le (by omega) _ _ _

theorem read_ingestOp_of_le {s t : State} {bs : List Byte} (h : ingestOp bs s = .next t) {a : Nat}
    (ha : min 254 (s.rlen.toNat + bs.length) ≤ a) : Memory.read t.rbuf a = Memory.read s.rbuf a := by
  have hs : LenLegal s := (ingestOp_next h).1
  have hrlen := rxAppend_rlen ⟨s.rbuf, s.rlen, 0⟩ bs hs
  have hread := read_rxAppend ⟨s.rbuf, s.rlen, 0⟩ bs hs a
  have hkept : Memory.read (rxAppend ⟨s.rbuf, s.rlen, 0⟩ bs).rbuf a = Memory.read s.rbuf a := by
    rw [hread]
    split
    next hin => rw [List.getElem?_eq_none (by dsimp only at hin ⊢; omega), Option.getD_none]
    next => rfl
  rw [ingestOp_legal hs] at h
  generalize rxAppend ⟨s.rbuf, s.rlen, 0⟩ bs = w at h hrlen hkept
  simp only [LenLegal, Config.rbufCap] at hs hrlen
  have hw : w.rlen.toNat ≤ a := by omega
  rw [← hkept, ← Host.Outcome.next.inj h]
  split
  · rfl
  · rw [read_rxScan_of_le s _ ((rxStrip_rlen_le w).trans hw), read_rxStrip_of_le w hw]

theorem ingested_of_exec {s t : State} {bs : List Byte} (h : exec (.ingest bs) s = .next t) :
    LenLegal s ∧ Ingested s bs t := by
  rw [exec_ingest] at h
  obtain ⟨hs, w, r, ht⟩ := ingestOp_next h
  obtain ⟨t', ht', hacc, hresults⟩ := ingestOp_eq_ingest hs bs
  obtain rfl : t = t' := Host.Outcome.next.inj (h.symm.trans ht')
  exact ⟨hs, hacc, hresults,
    ⟨by rw [ht, State.finishRx_wbuf], by rw [ht, State.finishRx_cfg], by rw [ht, State.finishRx_cmds],
      fun _ => read_ingestOp_of_le h⟩⟩

/-- From a legal `RLEN` INGEST runs to its end. -/
theorem exec_ingest_next {s : State} (hs : LenLegal s) (bs : List Byte) :
    ∃ t, exec (.ingest bs) s = .next t ∧ Ingested s bs t := by
  obtain ⟨t, ht, -⟩ := ingestOp_eq_ingest hs bs
  exact ⟨t, ht, (ingested_of_exec ht).2⟩

theorem State.acc_of_rlen_eq_zero {s : State} (h : s.rlen = 0) : s.acc = [] := by
  rw [State.acc, h]
  rfl

/-- An INGEST into an empty framer, by its sequence form. -/
theorem exec_ingest_empty {s : State} {bs : List Byte} {r : RxResult} (hs : s.rlen = 0)
    (hingest : ingest s.cfg.crcInit [] bs = ([], r)) :
    ∃ t, exec (.ingest bs) s = .next t ∧ t.results = [.rx r] ∧ t.rlen = 0 := by
  obtain ⟨t, ht, hacc, hresults, -⟩ := exec_ingest_next (lenLegal_of_rlen_eq_zero hs) bs
  rw [State.acc_of_rlen_eq_zero hs, hingest] at hacc hresults
  exact ⟨t, ht, hresults, t.rlen_eq_zero_of_acc_nil hacc⟩

/-! ### Frames over the wire (R54, R96, R112, R122) -/

theorem exec_ingest_own_frame {s : State} {p : List Byte} (hs : s.rlen = 0) (hp : p.length ≤ 250) :
    ∃ t, exec (.ingest (frame s.cfg.crcInit p)) s = .next t ∧
      t.results = [.rx ⟨true, some p.length, some p, 0, .deliver⟩] ∧ t.rlen = 0 :=
  exec_ingest_empty hs (ingest_own_frame hp)

/-- Settles O32: ENCODE emits the frame of R48, the strip removes the stray delimiters, the first delimiter left is the frame's,
the walk undoes the chain, and the body's checksum is zero. -/
theorem roundTrip : Obligations.RoundTrip := by
  intro s p hp
  refine ⟨_, _, exec_encode_fits (by omega) s, encoded_results p s, fun r n rest hr hcfg hfit => ?_⟩
  rw [length_frame] at hfit ⊢
  obtain ⟨rest', hingest⟩ := ingest_frameEndingWith (init := s.cfg.crcInit) s.cfg.crcInit
    (sentinel_ne_delim (p := p) (by omega)) hfit rest
  rw [verdict_frameEndingWith_own (length_le_sentinel (by omega)), ← hcfg] at hingest
  rw [← hcfg]
  exact exec_ingest_empty hr hingest

/-- Settles O33: the walk stops at any value from `i` up, so the value that ends the chain does not matter. -/
theorem anyChainEndIsAccepted : Obligations.AnyChainEndIsAccepted :=
  fun _ _ _ hs hp hv hne => exec_ingest_empty hs (ingest_own_frameEndingWith hne hv hp)

/-- Settles O34: the body verifies for its own `CRC_INIT` only, because the checksum determines its initial value. -/
theorem foreignCrcInitIsRejected : Obligations.ForeignCrcInitIsRejected :=
  fun _ _ _ hs hne hp => exec_ingest_empty hs (ingest_foreign_frame hne hp)

/-- Settles O39: a judgement empties the framer and keeps `CRC_INIT`, and an empty framer delivers a whole frame. -/
theorem nextFrameAfterAJudgedOneIsDelivered : Obligations.NextFrameAfterAJudgedOneIsDelivered := by
  intro s t bs p r ht hr hjudged hp
  obtain ⟨-, hacc, hresults, hframe⟩ := ingested_of_exec ht
  obtain rfl : r = _ := OpResult.rx.inj (List.cons.inj (hr.symm.trans hresults)).1
  rw [ingest_acc, if_neg hjudged] at hacc
  rw [← hframe.cfg]
  exact exec_ingest_own_frame (t.rlen_eq_zero_of_acc_nil hacc) hp

end Sys2Proof.Machine
end

section
/-!
The obligations about ENCODE. Each is a fact about one cell of the frame of R48: a chain cell holds a link
(`getElem?_frame_chainCell`), which points to the next occurrence or to the sentinel (`nextLink_toNat`), and any other cell
holds its byte.
-/

namespace Sys2Proof.Spec

open Sys2Proof.Machine

/-! ### The cells of a frame -/

section Cells

variable {v : Byte} {init : Word} {p : List Byte} {j : Nat} {b : Byte}

theorem getElem?_frameEndingWith_succ (h : (body init p)[j]? = some b) :
    (frameEndingWith v init p)[j + 1]? =
      some (if b = Config.delim then nextLink v (j + 2) ((body init p).drop (j + 1)) else b) := by
  have hj : j < (chained v 1 (body init p)).length := by
    rw [length_chained]
    exact (List.getElem?_eq_some_iff.1 h).1
  rw [frameEndingWith, List.cons_append, List.getElem?_cons_succ, List.getElem?_append_left hj, getElem?_chained, h,
    Option.map_some, show 1 + j + 1 = j + 2 by omega]

/-- The head and each occurrence hold the link to what comes after them (R48). -/
theorem getElem?_frame_chainCell (h : j = 0 ∨ (1 ≤ j ∧ (body init p)[j - 1]? = some Config.delim)) :
    (frameEndingWith v init p)[j]? = some (nextLink v (j + 1) ((body init p).drop j)) := by
  obtain rfl | ⟨hpos, hocc⟩ := h
  · rfl
  · obtain ⟨j, rfl⟩ := Nat.exists_eq_add_of_le' hpos
    exact (getElem?_frameEndingWith_succ hocc).trans (congrArg some (if_pos rfl))

theorem getElem?_frame_otherCell (h : (body init p)[j]? = some b) (hb : b ≠ Config.delim) :
    (frameEndingWith v init p)[j + 1]? = some b := by
  rw [getElem?_frameEndingWith_succ h, if_neg hb]

theorem getElem?_body_payload (h : p[j]? = some b) : (body init p)[j]? = some b := by
  rw [body, List.getElem?_append_left (List.getElem?_eq_some_iff.1 h).1, h]

theorem getElem?_frame_last : (frameEndingWith v init p)[p.length + 3]? = some Config.delim := by
  rw [frameEndingWith_eq, List.getElem?_append_right (by simp)]
  simp

end Cells

/-! ### Links -/

section Links

variable {u : List Byte} {j : Nat}

/-- The first delimiter from offset `j` on, as an offset of the whole sequence. -/
theorem getElem?_of_first_drop {k : Nat} (h : first (u.drop j) = some k) : u[j + k]? = some Config.delim := by
  rw [← List.getElem?_drop]
  exact (first_eq_some_iff.1 h).1

theorem ne_delim_before_first_drop {k i : Nat} (h : first (u.drop j) = some k) (hj : j ≤ i) (hi : i < j + k) :
    u[i]? ≠ some Config.delim := by
  intro hd
  obtain ⟨d, rfl⟩ := Nat.exists_eq_add_of_le hj
  rw [← List.getElem?_drop] at hd
  refine (first_eq_some_iff.1 h).2 _ (List.mem_of_getElem? (i := d) ?_) rfl
  rw [List.getElem?_take_of_lt (by omega), hd]

theorem ne_delim_of_first_drop_none {i : Nat} (h : first (u.drop j) = none) (hj : j ≤ i) : u[i]? ≠ some Config.delim := by
  intro hd
  obtain ⟨d, rfl⟩ := Nat.exists_eq_add_of_le hj
  rw [← List.getElem?_drop] at hd
  exact first_eq_none_iff.1 h _ (List.mem_of_getElem? hd) rfl

/-- A link points above its own offset, to the next occurrence or, when there is none, to the sentinel just behind the body. -/
theorem nextLink_toNat (hj : j ≤ u.length) (hu : u.length ≤ 253) {x : Byte}
    (hx : x = nextLink (BitVec.ofNat 8 (u.length + 1)) (j + 1) (u.drop j)) :
    j < x.toNat ∧ x.toNat ≤ u.length + 1 ∧ (x.toNat < u.length + 1 → u[x.toNat - 1]? = some Config.delim) ∧
      ∀ k, j < k → k < x.toNat → u[k - 1]? ≠ some Config.delim := by
  cases h : first (u.drop j) with
  | none =>
    have hval : x.toNat = u.length + 1 := by rw [hx, nextLink_of_first_none h, toNat_ofNat_of_le (by omega)]
    exact ⟨by omega, by omega, fun hlt => by omega, fun k hk _ => ne_delim_of_first_drop_none h (by omega)⟩
  | some d =>
    have hd : d < u.length - j := (first_lt_length h).trans_eq List.length_drop
    have hval : x.toNat = j + 1 + d := by rw [hx, nextLink_of_first_some h, toNat_ofNat_of_le (by omega)]
    refine ⟨by omega, by omega, fun _ => ?_, fun k hk hlt => ne_delim_before_first_drop h (by omega) (by omega)⟩
    rw [hval, show j + 1 + d - 1 = j + d by omega]
    exact getElem?_of_first_drop h

end Links

/-- The chain cells of a frame (R48, R49). -/
theorem frame_chainCell {init : Word} {p : List Byte} {j : Nat} (hp : p.length ≤ 251)
    (h : j = 0 ∨ (1 ≤ j ∧ (body init p)[j - 1]? = some Config.delim)) :
    ∃ x, (frame init p)[j]? = some x ∧ j < x.toNat ∧ x.toNat ≤ p.length + 3 ∧
      (x.toNat < p.length + 3 → (body init p)[x.toNat - 1]? = some Config.delim) ∧
      ∀ k, j < k → k < x.toNat → (body init p)[k - 1]? ≠ some Config.delim := by
  have hlen : (body init p).length + 1 = p.length + 3 := by rw [length_body]
  have hj : j ≤ (body init p).length := by
    obtain rfl | ⟨-, hocc⟩ := h
    · exact Nat.zero_le _
    · have := (List.getElem?_eq_some_iff.1 hocc).1
      omega
  have hlink := nextLink_toNat hj (by omega) rfl
  rw [hlen] at hlink
  exact ⟨_, getElem?_frame_chainCell h, hlink⟩

theorem frame_of_no_delim {init : Word} {p : List Byte} (h : ∀ b ∈ body init p, b ≠ Config.delim) :
    frame init p = BitVec.ofNat 8 (p.length + 3) :: body init p ++ [Config.delim] := by
  rw [frame, frameEndingWith, nextLink_of_first_none (first_eq_none_iff.2 h), chained_of_no_delim _ _ h]

end Sys2Proof.Spec

namespace Sys2Proof.Machine

open Sys2Proof.Spec

/-- Settles O16: the size test comes first and an oversized payload reaches nothing else. -/
theorem oversizeEncodeFails : Obligations.OversizeEncodeFails := fun s _ hp => exec_encode_oversize hp s

/-- Settles O18: the working buffer of the loop holds the closed form, cell by cell (`slice_frameBuffer`). -/
theorem encodeEqualsClosedForm : Obligations.EncodeEqualsClosedForm :=
  fun s p hp => ⟨_, exec_encode_fits hp s, encoded_results p s⟩

/-- Settles O17: the head is a chain cell, the cells before the last are no delimiter, and a payload byte that is none stands
one offset later. -/
theorem encodePostconditions : Obligations.EncodePostconditions := by
  intro s p hp
  obtain ⟨head, hget, hpos, hle, -⟩ := frame_chainCell (init := s.cfg.crcInit) hp (.inl rfl)
  refine ⟨_, _, exec_encode_fits hp s, encoded_results p s, length_frame _ _, getElem?_frame_last, ?_,
    ⟨head, hget, hpos, hle⟩, fun j b hb hne => getElem?_frame_otherCell (getElem?_body_payload hb) hne, encoded_rlen p s⟩
  rw [frame, take_frameEndingWith]
  exact chainedBody_ne_delim (sentinel_ne_delim hp) (by omega)

/-- Settles O19: the chain cells are the links of `frame_chainCell`, every other cell its byte, and without an occurrence the
one link is the head. -/
theorem chainLinksAscend : Obligations.ChainLinksAscend := by
  intro s p hp
  refine ⟨_, _, exec_encode_fits hp s, encoded_results p s, fun j hj => ?_,
    fun j b hb hne => getElem?_frame_otherCell hb hne, frame_of_no_delim⟩
  obtain ⟨x, hget, habove, hle, hocc, hnone⟩ := frame_chainCell hp hj
  exact ⟨x, hget, habove, hle, by omega, hocc, hnone⟩

/-- Settles O20: of the fields ENCODE writes only WBUF has cells, and those from `size + 4` on keep their value. -/
theorem encodeFrame : Obligations.EncodeFrame := fun s p hp =>
  ⟨_, _, exec_encode_fits hp s, encoded_results p s, encoded_rlen p s, encoded_rbuf p s, encoded_cfg p s, encoded_cmds p s,
    slice_frameBuffer _ _ _, fun _ ha => read_frameBuffer_of_le ha _ _⟩

/-- Settles O21: the frame depends on the payload and `CRC_INIT` only, and ENCODE keeps `CRC_INIT`. -/
theorem encodeTwiceEmitsTheSame : Obligations.EncodeTwiceEmitsTheSame := by
  intro s t p ht hp
  obtain rfl := Host.Outcome.next.inj ((exec_encode_fits hp s).symm.trans ht)
  exact ⟨_, exec_encode_fits hp _, by rw [encoded_results, encoded_results, encoded_cfg], encoded_rlen p _,
    encoded_rbuf p _⟩

end Sys2Proof.Machine
end

section
/-!
INGEST on sequences (R95), case by case: what is stripped, what a chunk without a delimiter does, what a judged delimiter does,
and that only the bytes up to the first delimiter matter. The obligations about the results of one INGEST follow.
-/

namespace Sys2Proof.Spec

open Sys2Proof.Machine

/-! ### Append and strip -/

section Append

variable {acc bs : List Byte}

/-- A chunk that fits is appended whole. -/
theorem appended_of_fits (h : acc.length + bs.length ≤ 254) : appended acc bs = acc ++ bs := by
  rw [appended, List.take_of_length_le (by simp only [Config.rbufCap]; omega)]

theorem appended_of_full (h : acc.length = 254) : appended acc bs = acc := by
  rw [appended, h, Nat.sub_self, List.take_zero, List.append_nil]

theorem appended_take_room : appended acc (bs.take (254 - acc.length)) = appended acc bs := by
  rw [appended, appended, List.take_take, Nat.min_self]

theorem appended_append (rest : List Byte) : ∃ more, appended acc (bs ++ rest) = appended acc bs ++ more :=
  ⟨_, by rw [appended, appended, List.take_append, List.append_assoc]⟩

theorem stripped_of_no_delim (h : ∀ b ∈ appended acc bs, b ≠ Config.delim) : stripped acc bs = appended acc bs := by
  rw [stripped, lead_eq_zero fun b hb => h b (List.mem_of_mem_head? hb), List.drop_zero]

/-- With accumulated bytes that hold no delimiter the strip removes nothing (R25). -/
theorem lead_appended_of_acc (hne : acc ≠ []) (h : ∀ b ∈ acc, b ≠ Config.delim) : lead (appended acc bs) = 0 := by
  obtain ⟨b, acc, rfl⟩ := List.exists_cons_of_ne_nil hne
  exact lead_cons_other (h b List.mem_cons_self) _

theorem stripped_of_acc (hne : acc ≠ []) (h : ∀ b ∈ acc, b ≠ Config.delim) : stripped acc bs = appended acc bs := by
  rw [stripped, lead_appended_of_acc hne h, List.drop_zero]

/-- The run of leading delimiters ends at a byte of the sequence, so bytes behind do not lengthen it. -/
theorem lead_append_of_lt {u : List Byte} (h : lead u < u.length) (v : List Byte) : lead (u ++ v) = lead u := by
  induction u with
  | nil => cases h
  | cons b u ih =>
    by_cases hb : b = Config.delim
    · subst hb
      rw [lead_cons_delim, List.length_cons, Nat.succ_lt_succ_iff] at h
      rw [List.cons_append, lead_cons_delim, lead_cons_delim, ih h]
    · rw [List.cons_append, lead_cons_other hb, lead_cons_other hb]

/-- Bytes behind a delimiter that is found stay behind it. -/
theorem stripped_append {i : Nat} (h : first (stripped acc bs) = some i) (rest : List Byte) :
    ∃ more, stripped acc (bs ++ rest) = stripped acc bs ++ more := by
  obtain ⟨more, happ⟩ := appended_append (acc := acc) (bs := bs) rest
  have hlead : lead (appended acc bs ++ more) = lead (appended acc bs) := by
    have hlt := first_lt_length h
    rw [stripped, List.length_drop] at hlt
    exact lead_append_of_lt (by omega) more
  refine ⟨more, ?_⟩
  rw [stripped, happ, hlead, List.drop_append_of_le_length (lead_le_length _), stripped]

theorem droppedCount_eq : droppedCount acc bs = bs.length - (254 - acc.length) := by
  simp only [droppedCount, Config.rbufCap]
  omega

end Append

/-! ### Outcomes of one INGEST -/

section Outcomes

variable {init : Word} {acc bs : List Byte} {u : List Byte} {i d : Nat}

/-- The count of dropped bytes has no part in the judgement (R103). -/
theorem verdict_withDropped (d' : Nat) : { verdict init u i d with rxDropped := d' } = verdict init u i d' := by
  by_cases hshort : i < 3
  · rw [verdict_short hshort, verdict_short hshort]; rfl
  · by_cases hcrc : crcOf init (restoredBlock u i) = 0
    · rw [verdict_residue_zero (by omega) hcrc, verdict_residue_zero (by omega) hcrc]; rfl
    · rw [verdict_residue_nonzero (by omega) hcrc, verdict_residue_nonzero (by omega) hcrc]; rfl

/-- Nor have the bytes behind the delimiter (R124). -/
theorem restoredBlock_append (h : i < u.length) (more : List Byte) : restoredBlock (u ++ more) i = restoredBlock u i := by
  obtain ⟨b, u, rfl⟩ := List.exists_cons_of_length_pos (Nat.zero_lt_of_lt h)
  rw [restoredBlock, List.take_append_of_le_length (Nat.le_of_lt h), List.cons_append, List.headD_cons, restoredBlock,
    List.headD_cons]

theorem verdict_append (h : i < u.length) (more : List Byte) : verdict init (u ++ more) i d = verdict init u i d := by
  simp only [verdict, restoredBlock_append h]

theorem ingest_of_no_delim (h : ∀ b ∈ appended acc bs, b ≠ Config.delim) :
    ingest init acc bs = (appended acc bs, .nothing .noFrame (droppedCount acc bs)) := by
  have hstripped := stripped_of_no_delim h
  rw [ingest_of_first_none init (by rw [hstripped]; exact first_eq_none_iff.2 h), hstripped]

/-- INGEST is decided by the stripped bytes; the count of dropped bytes is put beside it. -/
theorem ingest_congr {acc' bs' : List Byte} (h : stripped acc bs = stripped acc' bs') :
    ingest init acc bs =
      ((ingest init acc' bs').1, { (ingest init acc' bs').2 with rxDropped := droppedCount acc bs }) := by
  cases hfirst : first (stripped acc bs) with
  | none => rw [ingest_of_first_none init hfirst, ingest_of_first_none init (h ▸ hfirst), h]; rfl
  | some i =>
    rw [ingest_of_first_some init hfirst, ingest_of_first_some init (h ▸ hfirst), h]
    exact congrArg _ (verdict_withDropped _).symm

/-- A chunk that fits might as well have been there from the start. -/
theorem ingest_of_fits (h : acc.length + bs.length ≤ 254) : ingest init acc bs = ingest init [] (acc ++ bs) := by
  have hwhole : ([] : List Byte).length + (acc ++ bs).length ≤ 254 := by simpa using h
  have hstripped : stripped acc bs = stripped [] (acc ++ bs) := by
    rw [stripped, stripped, appended_of_fits h, appended_of_fits hwhole, List.nil_append]
  have hdropped : droppedCount acc bs = droppedCount [] (acc ++ bs) := by
    simp only [droppedCount_eq, List.length_append, List.length_nil]
    omega
  rw [ingest_congr hstripped, hdropped, ← ingest_rxDropped init]

/-- INGEST judged something, so the scan found a delimiter. -/
theorem exists_first_of_judged (h : (ingest init acc bs).2.rxCause ≠ .noFrame) : ∃ i, first (stripped acc bs) = some i := by
  cases hfirst : first (stripped acc bs) with
  | some i => exact ⟨i, rfl⟩
  | none => exact absurd (by rw [ingest_of_first_none init hfirst]; rfl) h

theorem ingest_judged_of_mem (h : Config.delim ∈ stripped acc bs) : (ingest init acc bs).2.rxCause ≠ .noFrame := by
  cases hfirst : first (stripped acc bs) with
  | none => exact absurd rfl (first_eq_none_iff.1 hfirst _ h)
  | some i => rw [ingest_of_first_some init hfirst]; exact verdict_rxCause_ne_noFrame

/-- No INGEST leaves a delimiter accumulated (R25). -/
theorem ingest_acc_ne_delim : ∀ b ∈ (ingest init acc bs).1, b ≠ Config.delim := by
  cases hfirst : first (stripped acc bs) with
  | none => rw [ingest_of_first_none init hfirst]; exact first_eq_none_iff.1 hfirst
  | some i => rw [ingest_of_first_some init hfirst]; exact nofun

theorem length_ingest_acc_le : (ingest init acc bs).1.length ≤ acc.length + min (254 - acc.length) bs.length := by
  have hstripped : (stripped acc bs).length ≤ acc.length + min (254 - acc.length) bs.length := by
    rw [stripped, List.length_drop, length_appended]
    exact Nat.sub_le _ _
  rw [ingest_acc]
  split
  · exact hstripped
  · exact Nat.zero_le _

/-- The two shapes of the results of INGEST: nothing, or a payload. -/
theorem ingest_result_cases : (∃ c, c ≠ .deliver ∧ (ingest init acc bs).2 = .nothing c (droppedCount acc bs)) ∨
    ∃ p, (ingest init acc bs).2 = .delivered p (droppedCount acc bs) := by
  cases hfirst : first (stripped acc bs) with
  | none => exact .inl ⟨.noFrame, nofun, by rw [ingest_of_first_none init hfirst]⟩
  | some i =>
    rw [ingest_of_first_some init hfirst]
    by_cases hshort : i < 3
    · exact .inl ⟨.rejectShort, nofun, verdict_short hshort⟩
    · by_cases hcrc : crcOf init (restoredBlock (stripped acc bs) i) = 0
      · exact .inr ⟨_, verdict_residue_zero (by omega) hcrc⟩
      · exact .inl ⟨.rejectCrc, nofun, verdict_residue_nonzero (by omega) hcrc⟩

/-- A delivery comes from a judged delimiter at 3 or later whose restored block verifies (R93). -/
theorem ingest_delivers {p : List Byte} (h : (ingest init acc bs).2.pout = some p) :
    ∃ i, 3 ≤ i ∧ first (stripped acc bs) = some i ∧ crcOf init (restoredBlock (stripped acc bs) i) = 0 ∧
      p = (restoredBlock (stripped acc bs) i).take (i - 3) ∧ (ingest init acc bs).2.rxValid = true := by
  cases hfirst : first (stripped acc bs) with
  | none => rw [ingest_of_first_none init hfirst] at h; cases h
  | some i =>
    rw [ingest_of_first_some init hfirst] at h ⊢
    by_cases hshort : i < 3
    · rw [verdict_short hshort] at h; cases h
    · by_cases hcrc : crcOf init (restoredBlock (stripped acc bs) i) = 0
      · rw [verdict_residue_zero (by omega) hcrc] at h ⊢
        exact ⟨i, by omega, rfl, hcrc, (Option.some.inj h).symm, rfl⟩
      · rw [verdict_residue_nonzero (by omega) hcrc] at h; cases h

theorem length_restoredBlock (h : i < u.length) : (restoredBlock u i).length = i - 1 := by
  rw [restoredBlock, List.length_drop, length_walk, List.length_take_of_le (Nat.le_of_lt h)]

end Outcomes

end Sys2Proof.Spec

namespace Sys2Proof.Machine

open Sys2Proof.Spec

/-! ### The results of INGEST -/

/-- An INGEST that answered `t` with the result `r`, on sequences. -/
theorem ingested_result {s t : State} {bs : List Byte} {r : RxResult} (h : exec (.ingest bs) s = .next t)
    (hr : t.results = [.rx r]) : Ingested s bs t ∧ r = (ingest s.cfg.crcInit s.acc bs).2 := by
  obtain ⟨-, hingested⟩ := ingested_of_exec h
  exact ⟨hingested, OpResult.rx.inj (List.cons.inj (hr.symm.trans hingested.results)).1⟩

theorem RxCause.valid_eq_true_iff (c : RxCause) : c.valid = true ↔ c = .deliver := by cases c <;> decide

/-- Settles O22: INGEST on the machine's buffers is INGEST on sequences. -/
theorem ingestEqualsSequenceForm : Obligations.IngestEqualsSequenceForm := fun _ bs hs => ingestOp_eq_ingest hs bs

/-- Settles O25: the results are those of nothing, for a cause other than `DELIVER`, or those of a payload; the count is the
excess over the room. -/
theorem ingestResultFields : Obligations.IngestResultFields := by
  refine ⟨rfl, rfl, rfl, rfl, fun s bs hs => ?_⟩
  obtain ⟨t, ht, -, hresults, -⟩ := exec_ingest_next hs bs
  have hdropped : droppedCount s.acc bs ≤ bs.length ∧ (0 < droppedCount s.acc bs ↔ 254 < s.rlen.toNat + bs.length) := by
    simp only [LenLegal, Config.rbufCap] at hs
    rw [droppedCount_eq, s.length_acc]
    omega
  refine ⟨t, _, ht, hresults, ?_⟩
  obtain ⟨c, hc, hr⟩ | ⟨p, hr⟩ := ingest_result_cases (init := s.cfg.crcInit) (acc := s.acc) (bs := bs) <;> rw [hr]
  · have hinvalid : c.valid ≠ true := mt (RxCause.valid_eq_true_iff c).1 hc
    exact ⟨RxCause.valid_eq_true_iff c, fun _ => ⟨rfl, rfl⟩, fun hvalid => absurd hvalid hinvalid, hdropped⟩
  · exact ⟨⟨fun _ => rfl, fun _ => rfl⟩, nofun, fun _ => ⟨p, rfl, rfl⟩, hdropped⟩

/-- Settles O26: the bytes that find no room are not appended, and the count has no part in the judgement. -/
theorem overflowOnlyCounts : Obligations.OverflowOnlyCounts := by
  intro s bs hs
  obtain ⟨t, ht, htacc, htresults, -⟩ := exec_ingest_next hs bs
  obtain ⟨u, hu, huacc, huresults, -⟩ := exec_ingest_next hs (bs.take (254 - s.rlen.toNat))
  rw [← s.length_acc] at huacc huresults hu ⊢
  have hsame : stripped s.acc bs = stripped s.acc (bs.take (254 - s.acc.length)) := by
    rw [stripped, stripped, appended_take_room]
  rw [ingest_congr hsame] at htacc htresults
  refine ⟨t, u, _, ht, hu, huresults, ?_, ?_, htacc.trans huacc.symm⟩
  · rw [ingest_rxDropped, droppedCount_eq, List.length_take]
    omega
  · rw [htresults, droppedCount_eq]

/-- Settles O38: the bytes behind the first delimiter reach neither the walk nor the checksum. -/
theorem bytesAfterTheDelimiterAreLost : Obligations.BytesAfterTheDelimiterAreLost := by
  intro s t bs rest r ht hr hjudged
  obtain ⟨-, hr⟩ := ingested_result ht hr
  obtain ⟨u, hu, huacc, huresults, -⟩ := exec_ingest_next (ingested_of_exec ht).1 (bs ++ rest)
  obtain ⟨i, hfirst⟩ := exists_first_of_judged (hr ▸ hjudged)
  obtain ⟨more, hmore⟩ := stripped_append hfirst rest
  have hfirst' : first (stripped s.acc (bs ++ rest)) = some i := by rw [hmore, first_append_of_some hfirst]
  rw [ingest_of_first_some _ hfirst', hmore, verdict_append (first_lt_length hfirst)] at huacc huresults
  refine ⟨u, hu, huacc, ?_⟩
  rw [huresults, hr, ingest_of_first_some _ hfirst, verdict_withDropped, droppedCount_eq, List.length_append, s.length_acc]

/-- Settles O30: the restored block of length `i - 1` is the payload of length `i - 3` and two bytes, and the verifier is exact.
-/
theorem deliveredPayloadVerifies : Obligations.DeliveredPayloadVerifies := by
  intro s t bs p r ht hr hp
  obtain ⟨-, rfl⟩ := ingested_result ht hr
  obtain ⟨i, hi, hfirst, hcrc, hpayload, hvalid⟩ := ingest_delivers hp
  have hlen := length_restoredBlock (first_lt_length hfirst)
  obtain ⟨h, l, hcheck⟩ : ∃ h l, (restoredBlock (stripped s.acc bs) i).drop (i - 3) = [h, l] := by
    apply List.length_eq_two.1
    rw [List.length_drop, hlen]
    omega
  have hblock : restoredBlock (stripped s.acc bs) i = p ++ [h, l] := by
    rw [hpayload, ← hcheck, List.take_append_drop]
  have hverify : crcVerify s.cfg.crcInit (p ++ [h, l]) = true := by rw [← hblock, crcVerify, decide_eq_true_iff, hcrc]
  exact ⟨hvalid, i, h, l, hfirst, hblock, hverify, (crcVerify_append_two_iff _ _ _ _).1 hverify⟩

/-- Settles O37: with accumulated bytes nothing is stripped, so the delimiter is among the bytes the scan sees. -/
theorem delimiterEndsTheBody : Obligations.DelimiterEndsTheBody := by
  intro s pre post hs hnodelim hne hroom
  obtain ⟨t, ht, hacc, hresults, -⟩ := exec_ingest_next hs (pre ++ 0xFF#8 :: post)
  have hacc_ne : s.acc ≠ [] := fun h => hne (s.rlen_eq_zero_of_acc_nil h)
  have hmem : Config.delim ∈ stripped s.acc (pre ++ 0xFF#8 :: post) := by
    rw [stripped_of_acc hacc_ne hnodelim, appended, s.length_acc]
    refine List.mem_append_right _ (List.mem_of_getElem? (i := pre.length) ?_)
    rw [List.getElem?_take_of_lt hroom, List.getElem?_append_right (Nat.le_refl _), Nat.sub_self]
    rfl
  have hjudged := ingest_judged_of_mem (init := s.cfg.crcInit) hmem
  rw [ingest_acc, if_neg hjudged] at hacc
  exact ⟨t, _, ht, hresults, hjudged, hacc⟩

/-! ### The wedge (R12, R97, R125) -/

theorem wedged_of_acc {s : State} {u : List Byte} (h : s.acc = u) (hlen : u.length = 254)
    (hu : ∀ b ∈ u, b ≠ Config.delim) : Wedged s :=
  ⟨by rw [← s.length_acc, h, hlen], by rwa [NoDelimiter, h]⟩

/-- A chunk that fills the buffer without a delimiter wedges the framer. -/
theorem exec_ingest_wedges {s : State} {bs : List Byte} (hs : LenLegal s) (hlen : (appended s.acc bs).length = 254)
    (hbs : ∀ b ∈ appended s.acc bs, b ≠ Config.delim) :
    ∃ t, exec (.ingest bs) s = .next t ∧ t.results = [.rx ⟨false, none, none, droppedCount s.acc bs, .noFrame⟩] ∧
      t.acc = appended s.acc bs ∧ Wedged t := by
  obtain ⟨t, ht, hacc, hresults, -⟩ := exec_ingest_next hs bs
  rw [ingest_of_no_delim hbs] at hacc hresults
  exact ⟨t, ht, hresults, hacc, wedged_of_acc hacc hlen hbs⟩

theorem not_wedged_of_rlen_eq_zero {s : State} (h : s.rlen = 0) : ¬ Wedged s := fun hw => by
  have hrlen := hw.1
  rw [h] at hrlen
  cases hrlen

theorem length_appended_of_full {acc bs : List Byte} (hacc : acc.length ≤ 254) (h : 254 ≤ acc.length + bs.length) :
    (appended acc bs).length = 254 := by
  rw [length_appended]
  simp only [Config.rbufCap]
  omega

theorem length_acc_of_wedged {s : State} (h : Wedged s) : s.acc.length = 254 := s.length_acc.trans h.1

/-- In a wedge a chunk is dropped whole (R125). -/
theorem exec_ingest_wedged {s : State} (h : Wedged s) (bs : List Byte) :
    ∃ t, exec (.ingest bs) s = .next t ∧ t.results = [.rx ⟨false, none, none, bs.length, .noFrame⟩] ∧
      t.acc = s.acc ∧ Wedged t := by
  have hlen := length_acc_of_wedged h
  have hfull : appended s.acc bs = s.acc := appended_of_full hlen
  have hdropped : droppedCount s.acc bs = bs.length := by rw [droppedCount_eq, hlen, Nat.sub_self, Nat.sub_zero]
  have hwedge := exec_ingest_wedges (s := s) (bs := bs) h.1.le (by rwa [hfull]) (by rw [hfull]; exact h.2)
  rwa [hfull, hdropped] at hwedge

/-- The operations that end a wedge are RESET and an ENCODE that fits (R125). -/
theorem ends_wedge_cases {c : Command} {i : Instr} {s t : State} (hd : decode c = .ok i) (hs : Wedged s)
    (h : exec i s = .next t) (ht : ¬ Wedged t) : i = .reset ∨ ∃ p, p.length ≤ 251 ∧ i = .encode p := by
  obtain rfl | ⟨p, rfl⟩ | ⟨bs, rfl⟩ := decode_ok_cases hd
  · exact .inl rfl
  · by_cases hp : p.length ≤ 251
    · exact .inr ⟨p, hp, rfl⟩
    · rw [exec_encode_oversize (by omega)] at h
      obtain rfl := Host.Outcome.next.inj h
      exact absurd hs ht
  · obtain ⟨t', ht', -, -, hwedged⟩ := exec_ingest_wedged hs bs
    obtain rfl := Host.Outcome.next.inj (h.symm.trans ht')
    exact absurd hwedged ht

/-- Settles O36: 254 bytes without a delimiter are appended and not stripped; a full buffer takes no byte, so every later INGEST
finds none either; RESET and a successful ENCODE set `RLEN` to 0. -/
theorem wedgeLastsUntilResetOrEncode : Obligations.WedgeLastsUntilResetOrEncode := by
  refine ⟨fun s bs hs hbs hlen => ?_, fun s bs hs => ?_, fun s t hs h ht => ?_, fun s _ => ⟨?_, fun p hp => ?_⟩⟩
  · have hnodelim : ∀ b ∈ appended s.acc bs, b ≠ Config.delim := fun b hb =>
      hbs b (List.mem_append.2 ((List.mem_append.1 hb).imp_right List.mem_of_mem_take))
    obtain ⟨t, ht, -, -, hwedged⟩ :=
      exec_ingest_wedges hs (length_appended_of_full (s.length_acc.trans_le hs) hlen) hnodelim
    exact ⟨t, ht, hwedged⟩
  · obtain ⟨t, ht, hresults, hacc, hwedged⟩ := exec_ingest_wedged hs bs
    exact ⟨t, ht, hresults, BitVec.eq_of_toNat_eq (hwedged.1.trans hs.1.symm), hacc⟩
  · obtain ⟨-, rfl⟩ | ⟨c, rest, i, hcmds, hd, he⟩ := step_next h
    · exact absurd hs ht
    · refine ⟨c, rest, hcmds, ?_⟩
      obtain rfl | ⟨p, hp, rfl⟩ := ends_wedge_cases (s := { s with cmds := rest }) hd hs he ht
      · exact .inl hd
      · exact .inr ⟨p, hp, hd⟩
  · exact ⟨_, exec_reset s, not_wedged_of_rlen_eq_zero rfl⟩
  · exact ⟨_, exec_encode_fits hp s, not_wedged_of_rlen_eq_zero rfl⟩

/-- Settles O31: a judged delimiter stands below 254 and the payload is three shorter; the frame of 251 bytes is one byte too
long, and what is left without its delimiter wedges the framer. -/
theorem largestDeliverablePayload : Obligations.LargestDeliverablePayload := by
  refine ⟨fun s t bs p r ht hr hp => ?_, fun s p hp => ?_⟩
  · obtain ⟨-, rfl⟩ := ingested_result ht hr
    obtain ⟨i, -, hfirst, -, hpayload, -⟩ := ingest_delivers hp
    have hi : i < 254 := (first_lt_length hfirst).trans_le
      (length_stripped_le_rbufCap (s.length_acc.trans_le (ingested_of_exec ht).1))
    calc p.length ≤ i - 3 := by rw [hpayload]; exact List.length_take_le _ _
      _ ≤ 250 := by omega
  · have hbody : appended [] (frame s.cfg.crcInit p) = (frame s.cfg.crcInit p).take 254 := rfl
    have hwedge := exec_ingest_wedges (s := encoded p s) (bs := frame s.cfg.crcInit p) (lenLegal_of_rlen_eq_zero rfl)
    have hlen : (frame s.cfg.crcInit p).length = 255 := by rw [length_frame, hp]
    have hdropped : droppedCount [] (frame s.cfg.crcInit p) = 1 := by rw [droppedCount_eq, hlen]; rfl
    rw [encoded_acc, hbody, hdropped] at hwedge
    have hnodelim : ∀ b ∈ (frame s.cfg.crcInit p).take 254, b ≠ Config.delim := by
      rw [frame, show 254 = p.length + 3 by omega, take_frameEndingWith]
      exact chainedBody_ne_delim (sentinel_ne_delim hp.le) (by omega)
    obtain ⟨u, hu, hresults, hacc, hwedged⟩ := hwedge (by rw [List.length_take, hlen]; rfl) hnodelim
    exact ⟨_, _, u, exec_encode_fits hp.le s, encoded_results p s, hlen, hu, hresults, hacc, hwedged⟩

end Sys2Proof.Machine
end

section
/-!
The decoder and the step (30_encoding.md sections 4 and 5, 20_memory.md R40). A command that decodes is the one command of what
it decodes to (`decode_ok_iff`); a host operation does not look at the commands issued after it (`exec_setCmds`), so running
issued operations is performing them in turn (`runSteps_issued`).
-/

namespace Sys2Proof

/-! ### Decode and encode -/

/-- The three commands that decode, and to what. -/
theorem decode_ok_command {c : Command} {i : Instr} (h : decode c = .ok i) :
    (c = resetCommand ∧ i = .reset) ∨ (∃ p, c = encodeCommand p ∧ i = .encode p) ∨
      ∃ bs, c = ingestCommand bs ∧ i = .ingest bs := by
  obtain ⟨op, n, d⟩ := c
  simp only [decode] at h
  split at h
  next hop =>
    split at h
    next hnone =>
      obtain ⟨rfl, rfl⟩ := hnone
      exact .inl ⟨by rw [hop]; rfl, (Except.ok.inj h).symm⟩
    next => cases h
  next =>
    split at h
    next hop =>
      split at h
      next hlen => exact .inr (.inl ⟨d, by rw [hop, ← hlen]; rfl, (Except.ok.inj h).symm⟩)
      next => cases h
    next =>
      split at h
      next hop =>
        split at h
        next hlen => exact .inr (.inr ⟨d, by rw [hop, ← hlen]; rfl, (Except.ok.inj h).symm⟩)
        next => cases h
      next => cases h

theorem decodeAll_cons_of_ok {c : Command} {cs : List Command} {i : Instr} {is : List Instr} (hc : decode c = .ok i)
    (hcs : decodeAll cs = .ok is) : decodeAll (c :: cs) = .ok (i :: is) := by
  rw [decodeAll, hc, hcs]

theorem decodeAll_ingestCommands (cs : List (List Byte)) : decodeAll (cs.map ingestCommand) = .ok (cs.map .ingest) := by
  induction cs with
  | nil => rfl
  | cons c cs ih => exact decodeAll_cons_of_ok (Machine.decode_ingestCommand c) ih

theorem decodeAll_encode (i : Instr) : decodeAll (encode i) = .ok (expansion i) := by
  cases i with
  | reset => exact decodeAll_cons_of_ok Machine.decode_resetCommand rfl
  | encode p => exact decodeAll_cons_of_ok (Machine.decode_encodeCommand p) rfl
  | ingest bs => exact decodeAll_cons_of_ok (Machine.decode_ingestCommand bs) rfl
  | reserved => rfl
  | crcPartial => rfl
  | crcOf => rfl
  | crcAppend => rfl
  | crcVerify => rfl
  | decode w =>
    exact decodeAll_cons_of_ok Machine.decode_resetCommand (decodeAll_cons_of_ok (Machine.decode_ingestCommand w) rfl)
  | feed w lens => exact decodeAll_ingestCommands (chunks w lens)
  | poll => exact decodeAll_cons_of_ok (Machine.decode_ingestCommand []) rfl

theorem hostOperation_cases {i : Instr} (h : HostOperation i = true) :
    i = .reset ∨ (∃ p, i = .encode p) ∨ ∃ bs, i = .ingest bs := by
  cases i with
  | reset => exact .inl rfl
  | encode p => exact .inr (.inl ⟨p, rfl⟩)
  | ingest bs => exact .inr (.inr ⟨bs, rfl⟩)
  | _ => cases h

theorem encode_of_hostOperation {i : Instr} (h : HostOperation i = true) : ∃ c, encode i = [c] ∧ decode c = .ok i := by
  obtain rfl | ⟨p, rfl⟩ | ⟨bs, rfl⟩ := hostOperation_cases h
  · exact ⟨_, rfl, Machine.decode_resetCommand⟩
  · exact ⟨_, rfl, Machine.decode_encodeCommand p⟩
  · exact ⟨_, rfl, Machine.decode_ingestCommand bs⟩

/-- Settles O3: by the constructors; FEED by induction on its chunks. -/
theorem commandsDecodeToTheirOperations : Obligations.CommandsDecodeToTheirOperations :=
  fun i => ⟨decodeAll_encode i, encode_of_hostOperation⟩

/-- Settles O4: the three commands that decode are the encodings of the three host operations. -/
theorem decodedCommandIsItsEncoding : Obligations.DecodedCommandIsItsEncoding := by
  intro c i h
  obtain ⟨rfl, rfl⟩ | ⟨p, rfl, rfl⟩ | ⟨bs, rfl, rfl⟩ := decode_ok_command h
  · exact ⟨rfl, rfl, rfl⟩
  · exact ⟨rfl, rfl, rfl⟩
  · exact ⟨rfl, rfl, rfl⟩

/-- Settles O1: six fixed commands, decoded. -/
theorem tableWordsDecode : Obligations.TableWordsDecode :=
  ⟨by decide, by decide, by decide, by decide, by decide, by decide⟩

theorem decode_encode_wrongLength {n : Nat} {d : List Byte} (h : d.length ≠ n) :
    decode ⟨0b01#2, n, d⟩ = .error .operandLength := by
  simp [decode, h]

theorem decode_ingest_wrongLength {n : Nat} {d : List Byte} (h : d.length ≠ n) :
    decode ⟨0b10#2, n, d⟩ = .error .operandLength := by
  simp [decode, h]

theorem decode_reset_withOperands {n : Nat} {d : List Byte} (h : n ≠ 0 ∨ d ≠ []) :
    decode ⟨0b00#2, n, d⟩ = .error .operandOnReset := by
  have hoperands : ¬ (n = 0 ∧ d = []) := fun hnone => h.elim (· hnone.1) (· hnone.2)
  rw [decode, if_pos rfl, if_neg hoperands]

end Sys2Proof

namespace Sys2Proof.Machine

open Sys2Proof.Spec

/-! ### One step -/

theorem step_of_decode_ok {s : State} {c : Command} {rest : List Command} {i : Instr} (hc : s.cmds = c :: rest)
    (hd : decode c = .ok i) : step s = exec i { s with cmds := rest } := by
  simp only [step, takeCommand_cons hc, hd]

theorem step_of_no_command {s : State} (h : s.cmds = []) : step s = .next s := by
  simp only [step, takeCommand_nil h]

/-- Settles O5: the three cases of `step`. -/
theorem stepPerformsTheNextCommand : Obligations.StepPerformsTheNextCommand :=
  ⟨fun _ _ _ _ => step_of_decode_ok, fun _ _ _ e hc hd => ⟨refusalOf e, step_of_decode_error hc hd⟩,
    fun _ => step_of_no_command⟩

theorem exec_hostOperation_next {i : Instr} {s : State} (hi : HostOperation i = true) (hs : LenLegal s) :
    ∃ t, exec i s = .next t := by
  obtain rfl | ⟨p, rfl⟩ | ⟨bs, rfl⟩ := hostOperation_cases hi
  · exact ⟨_, exec_reset s⟩
  · by_cases hp : p.length ≤ 251
    · exact ⟨_, exec_encode_fits hp s⟩
    · exact ⟨_, exec_encode_oversize (by omega) s⟩
  · obtain ⟨t, ht, -⟩ := exec_ingest_next hs bs
    exact ⟨t, ht⟩

/-- Settles O7: what decodes is a host operation, and each of the three runs to its end from a legal `RLEN`; a command that does
not decode is refused. -/
theorem everyIssuedOperationCompletes : Obligations.EveryIssuedOperationCompletes := by
  intro s hs
  have hcompletes : ∀ c rest i, s.cmds = c :: rest → decode c = .ok i → ∃ t, step s = .next t := by
    intro c rest i hc hd
    rw [step_of_decode_ok hc hd]
    exact exec_hostOperation_next (decodedCommandIsItsEncoding c i hd).1 hs
  refine ⟨hcompletes, fun f hf => ?_⟩
  cases hc : s.cmds with
  | nil => rw [step_of_no_command hc] at hf; cases hf
  | cons c rest =>
    cases hd : decode c with
    | error e => rw [step_of_decode_error hc hd] at hf; cases hf
    | ok i =>
      obtain ⟨t, ht⟩ := hcompletes c rest i hc hd
      rw [ht] at hf
      cases hf

theorem exec_feed (w : List Byte) (lens : List Nat) (s : State) : exec (.feed w lens) s = feedChunks (chunks w lens) [] s := rfl
theorem exec_decode (w : List Byte) (s : State) : exec (.decode w) s = exec (.ingest w) (s.emptyRx.returns []) := rfl
theorem exec_poll (s : State) : exec .poll s = exec (.ingest []) s := rfl

theorem exec_feed_illegal {s : State} (h : 254 < s.rlen.toNat) (w : List Byte) (n : Nat) (lens : List Nat) :
    exec (.feed w (n :: lens)) s = .fault .rbufBounds := by
  rw [exec_feed, chunks, feedChunks, ingestOp_illegal h, andThen_fault]

/-- Settles O8: INGEST, POLL and the first chunk of FEED meet the bound of the buffer first; the other stops are the fit test of
CRC_APPEND and the decoder's. -/
theorem stopsOutsideTheSpec : Obligations.StopsOutsideTheSpec :=
  ⟨fun _ bs hs => ⟨ingestOp_illegal hs bs, ingestOp_illegal hs []⟩,
    fun _ w n lens hs => exec_feed_illegal hs w n lens,
    fun s _ _ _ h => execCrcAppend_outside h s,
    fun _ _ _ h => ⟨step_of_decode_error rfl (decode_encode_wrongLength h),
      step_of_decode_error rfl (decode_ingest_wrongLength h)⟩,
    fun _ _ _ h => step_of_decode_error rfl (decode_reset_withOperands h)⟩

/-! ### Issued operations, one after another (R40) -/

/-- An outcome with other commands issued. -/
def setCmds (q : List Command) : Host.Outcome State Fault Refusal → Host.Outcome State Fault Refusal
  | .next s => .next { s with cmds := q }
  | .fault f => .fault f
  | .refused r => .refused r

theorem rxScan_setCmds (q : List Command) (s : State) (w : RxWork) :
    rxScan { s with cmds := q } w = { rxScan s w with cmds := q } := by
  unfold rxScan
  cases rxFind w with
  | none => rfl
  | some i => simp only [rxJudge_cases]; rfl

theorem ingestOp_setCmds (q : List Command) (bs : List Byte) (s : State) :
    ingestOp bs { s with cmds := q } = setCmds q (ingestOp bs s) := by
  by_cases hs : s.rlen.toNat ≤ 254
  · rw [ingestOp_legal hs, ingestOp_legal (s := { s with cmds := q }) hs, setCmds]
    dsimp only
    split
    · rfl
    · rw [rxScan_setCmds]
  · rw [ingestOp_illegal (Nat.lt_of_not_le hs), ingestOp_illegal (s := { s with cmds := q }) (Nat.lt_of_not_le hs)]
    rfl

theorem encodeOp_setCmds (q : List Command) (p : List Byte) (s : State) :
    encodeOp p { s with cmds := q } = setCmds q (encodeOp p s) := by
  by_cases hp : p.length ≤ 251
  · rw [encodeOp_fits hp, encodeOp_fits hp]
    rfl
  · rw [encodeOp_oversize (by omega), encodeOp_oversize (by omega)]
    rfl

/-- A host operation neither looks at the commands issued after it nor changes them. -/
theorem exec_setCmds {i : Instr} (hi : HostOperation i = true) (q : List Command) (s : State) :
    exec i { s with cmds := q } = setCmds q (exec i s) := by
  obtain rfl | ⟨p, rfl⟩ | ⟨bs, rfl⟩ := hostOperation_cases hi
  · rfl
  · exact encodeOp_setCmds q p s
  · exact ingestOp_setCmds q bs s

theorem runSteps_issued {is : List Instr} (his : ∀ i ∈ is, HostOperation i = true) (s : State) :
    runSteps is.length { s with cmds := is.flatMap encode } = performAll is { s with cmds := [] } := by
  induction is generalizing s with
  | nil => rfl
  | cons i is ih =>
    have hi := his i List.mem_cons_self
    obtain ⟨c, hencode, hdecode⟩ := encode_of_hostOperation hi
    have hcmds : (i :: is).flatMap encode = c :: is.flatMap encode := by rw [List.flatMap_cons, hencode]; rfl
    have hstep : step { s with cmds := (i :: is).flatMap encode } = setCmds (is.flatMap encode) (exec i s) := by
      rw [hcmds, step_of_decode_ok rfl hdecode]
      exact exec_setCmds hi _ s
    rw [List.length_cons, runSteps, performAll, hstep, exec_setCmds hi [] s]
    cases exec i s with
    | next t => exact ih (fun j hj => his j (List.mem_cons_of_mem i hj)) t
    | fault f => rfl
    | refused r => rfl

/-- Settles O6: by induction on the list; the first step performs the first operation on a state with the other commands left.
-/
theorem traceIsFoldOfOperations : Obligations.TraceIsFoldOfOperations := fun _ s his => runSteps_issued his s

end Sys2Proof.Machine
end

section
/-!
The pseudo-operations (30_encoding.md R63). FEED is carried through its chunks once (`feedChunks_next`); what a chunk sequence
does to one frame (R98 a) is then a fact about `Spec.feed`: chunks without a delimiter pile up (`feed_chunks_no_delim`), and the
chunk that completes the frame is judged as if the frame had come whole (`ingest_of_fits`).
-/

namespace Sys2Proof.Spec

open Sys2Proof.Machine

/-! ### Chunks -/

theorem flatten_chunks {w : List Byte} {lens : List Nat} (h : lens.sum = w.length) : (chunks w lens).flatten = w := by
  induction lens generalizing w with
  | nil => exact (List.eq_nil_of_length_eq_zero h.symm).symm
  | cons c lens ih =>
    rw [List.sum_cons] at h
    rw [chunks, List.flatten_cons, ih (by rw [List.length_drop]; omega), List.take_append_drop]

theorem map_length_chunks {w : List Byte} {lens : List Nat} (h : lens.sum ≤ w.length) :
    (chunks w lens).map List.length = lens := by
  induction lens generalizing w with
  | nil => rfl
  | cons c lens ih =>
    rw [List.sum_cons] at h
    rw [chunks, List.map_cons, List.length_take_of_le (by omega), ih (by rw [List.length_drop]; omega)]

theorem chunks_append (w : List Byte) (l1 l2 : List Nat) :
    chunks w (l1 ++ l2) = chunks w l1 ++ chunks (w.drop l1.sum) l2 := by
  induction l1 generalizing w with
  | nil => rfl
  | cons c l1 ih => rw [List.cons_append, chunks, ih, chunks, List.drop_drop, List.sum_cons]; rfl

/-! ### INGEST of chunk after chunk on sequences -/

theorem feed_append (init : Word) (acc : List Byte) (cs ds : List (List Byte)) :
    feed init acc (cs ++ ds) =
      ((feed init (feed init acc cs).1 ds).1, (feed init acc cs).2 ++ (feed init (feed init acc cs).1 ds).2) := by
  induction cs generalizing acc with
  | nil => rfl
  | cons c cs ih => simp only [List.cons_append, feed, ih]

/-- Chunks that fit and hold no delimiter are accumulated, each with the result `NO_FRAME`. -/
theorem feed_chunks_no_delim (init : Word) {acc w : List Byte} {lens : List Nat} (hfit : acc.length + lens.sum ≤ 254)
    (h : ∀ b ∈ acc ++ w.take lens.sum, b ≠ Config.delim) :
    feed init acc (chunks w lens) = (acc ++ w.take lens.sum, List.replicate lens.length (.rx (.nothing .noFrame 0))) := by
  induction lens generalizing acc w with
  | nil => exact congrArg (·, []) (by rw [List.sum_nil, List.take_zero, List.append_nil])
  | cons c lens ih =>
    rw [List.sum_cons] at hfit
    rw [List.sum_cons, List.take_add, ← List.append_assoc] at h ⊢
    have hroom : acc.length + (w.take c).length ≤ 254 := by rw [List.length_take]; omega
    have hchunk : ingest init acc (w.take c) = (acc ++ w.take c, .nothing .noFrame 0) := by
      have happended := appended_of_fits hroom
      have hdropped : droppedCount acc (w.take c) = 0 := by rw [droppedCount_eq]; omega
      rw [ingest_of_no_delim (by rw [happended]; exact fun b hb => h b (List.mem_append_left _ hb)), happended, hdropped]
    have hrest := ih (acc := acc ++ w.take c) (w := w.drop c)
      (by rw [List.length_append, List.length_take]; omega) h
    rw [chunks, feed, hchunk, hrest]
    rfl

/-- However a frame is cut: the results before, at and after its last byte (R98 a). -/
theorem feed_cut_frame (init : Word) {p : List Byte} (hp : p.length ≤ 250) {before : List Nat} {c : Nat} (k : Nat)
    (hc : 0 < c) (hcut : before.sum + c = p.length + 4) :
    feed init [] (chunks (frame init p) (before ++ c :: List.replicate k 0)) =
      ([], List.replicate before.length (.rx (.nothing .noFrame 0)) ++ .rx (.delivered p 0) ::
        List.replicate k (.rx (.nothing .noFrame 0))) := by
  have hlen : (frame init p).length = p.length + 4 := length_frame init p
  have hbefore : feed init [] (chunks (frame init p) before) =
      ((frame init p).take before.sum, List.replicate before.length (.rx (.nothing .noFrame 0))) := by
    refine feed_chunks_no_delim init (by rw [List.length_nil]; omega) fun b hb => ?_
    have hbody : b ∈ (frame init p).take (p.length + 3) :=
      (List.take_prefix_take_left (show before.sum ≤ p.length + 3 by omega)).subset hb
    rw [frame, take_frameEndingWith] at hbody
    exact chainedBody_ne_delim (sentinel_ne_delim (by omega)) (by omega) b hbody
  have hlast : ingest init ((frame init p).take before.sum) (((frame init p).drop before.sum).take c) =
      ([], .delivered p 0) := by
    have hrest : ((frame init p).drop before.sum).take c = (frame init p).drop before.sum :=
      List.take_of_length_le (by rw [List.length_drop, hlen]; omega)
    rw [hrest, ingest_of_fits (by rw [List.length_take, List.length_drop]; omega), List.take_append_drop]
    exact ingest_own_frame hp
  have hafter : feed init [] (chunks (((frame init p).drop before.sum).drop c) (List.replicate k 0)) =
      ([], List.replicate k (.rx (.nothing .noFrame 0))) := by
    have hsum : (List.replicate k 0).sum = 0 := by simp
    have hpolls := feed_chunks_no_delim init (acc := []) (w := ((frame init p).drop before.sum).drop c)
      (lens := List.replicate k 0) (by rw [hsum]; exact Nat.zero_le _) (by rw [hsum]; exact nofun)
    rwa [hsum, List.length_replicate] at hpolls
  rw [chunks_append, feed_append, hbefore, chunks, feed, hlast]
  dsimp only
  rw [hafter]

end Sys2Proof.Spec

namespace Sys2Proof.Machine

open Sys2Proof.Spec

/-! ### FEED, DECODE and POLL -/

theorem RxFrame.mono {s t : State} {e e' : Nat} (h : RxFrame s t e) (he : e ≤ e') : RxFrame s t e' :=
  ⟨h.wbuf, h.cfg, h.cmds, fun a ha => h.stale a (he.trans ha)⟩

theorem RxFrame.trans {s t u : State} {e : Nat} (h : RxFrame s t e) (h' : RxFrame t u e) : RxFrame s u e :=
  ⟨h'.wbuf.trans h.wbuf, h'.cfg.trans h.cfg, h'.cmds.trans h.cmds, fun a ha => (h'.stale a ha).trans (h.stale a ha)⟩

theorem Ingested.rlen_le {s t : State} {bs : List Byte} (h : Ingested s bs t) :
    t.rlen.toNat ≤ s.rlen.toNat + min (254 - s.rlen.toNat) bs.length := by
  rw [← t.length_acc, ← s.length_acc, h.acc]
  exact length_ingest_acc_le

theorem Ingested.lenLegal {s t : State} {bs : List Byte} (h : Ingested s bs t) (hs : LenLegal s) : LenLegal t := by
  have hle := h.rlen_le
  simp only [LenLegal, Config.rbufCap] at hs ⊢
  omega

/-- What FEED of the chunks `cs` in `s` leaves when it answers `t` after the results `rs`. -/
structure Fed (s : State) (cs : List (List Byte)) (rs : List OpResult) (t : State) : Prop where
  /-- The accumulated bytes of `Spec.feed`. -/
  acc : t.acc = (feed s.cfg.crcInit s.acc cs).1
  /-- The results so far and those of `Spec.feed`. -/
  results : t.results = rs ++ (feed s.cfg.crcInit s.acc cs).2
  /-- No cell from the end of all that could be appended on is written. -/
  frame : RxFrame s t (min 254 (s.rlen.toNat + cs.flatten.length))

theorem feedChunks_next {s : State} (hs : LenLegal s) (cs : List (List Byte)) (rs : List OpResult) :
    ∃ t, feedChunks cs rs s = .next t ∧ Fed s cs rs t := by
  induction cs generalizing s rs with
  | nil => exact ⟨s.returns rs, rfl, rfl, (List.append_nil rs).symm, rfl, rfl, rfl, fun _ _ => rfl⟩
  | cons c cs ih =>
    obtain ⟨t, ht, hingested⟩ := exec_ingest_next hs c
    obtain ⟨u, hu, hfed⟩ := ih (hingested.lenLegal hs) (rs ++ t.results)
    obtain ⟨hacc, hresults, hframe⟩ := hfed
    have hle := hingested.rlen_le
    have hlen : (c :: cs).flatten.length = c.length + cs.flatten.length := by simp
    rw [hingested.frame.cfg, hingested.acc] at hacc hresults
    refine ⟨u, ?_, hacc, ?_, (hingested.frame.mono ?_).trans (hframe.mono ?_)⟩
    · rw [feedChunks, ← exec_ingest, ht, andThen_next, hu]
    · rw [hresults, hingested.results, List.append_assoc]
      rfl
    · omega
    · omega

/-- Settles O41: by induction on the chunks; INGEST keeps `RLEN` legal for the next one. -/
theorem feedIngestsEachChunk : Obligations.FeedIngestsEachChunk := by
  refine ⟨fun s w lens hs => ?_, fun w lens hwf => ?_⟩
  · obtain ⟨t, ht, hacc, hresults, -⟩ := feedChunks_next hs (chunks w lens) []
    exact ⟨t, ht, hacc, hresults⟩
  · have hsum : lens.sum = w.length := of_decide_eq_true hwf
    exact ⟨flatten_chunks hsum, map_length_chunks hsum.le⟩

/-- Settles O35: FEED is `Spec.feed`, and on the chunks of one frame that is `feed_cut_frame`. -/
theorem chunkingDoesNotMatter : Obligations.ChunkingDoesNotMatter := by
  intro s p before c k hs hp hc hcut
  obtain ⟨t, ht, hacc, hresults, -⟩ := feedChunks_next (lenLegal_of_rlen_eq_zero hs)
    (chunks (frame s.cfg.crcInit p) (before ++ c :: List.replicate k 0)) []
  rw [State.acc_of_rlen_eq_zero hs, feed_cut_frame _ hp k hc hcut] at hacc hresults
  refine ⟨t, ht, ?_, t.rlen_eq_zero_of_acc_nil hacc⟩
  rw [hresults, List.nil_append, List.append_assoc]
  rfl

/-- Settles O40: the state after RESET is empty and keeps `CRC_INIT`. -/
theorem decodeIsResetThenIngest : Obligations.DecodeIsResetThenIngest := by
  intro s w
  obtain ⟨t, ht, hacc, hresults, -⟩ := exec_ingest_next (s := s.emptyRx.returns []) (lenLegal_of_rlen_eq_zero rfl) w
  exact ⟨_, t, exec_reset s, ht, (exec_decode w s).trans ht, hacc, hresults⟩

/-- Settles O27: no step of INGEST writes a cell at or beyond the end of what was appended; DECODE starts at `RLEN = 0`, and
FEED takes the bound of its last chunk. -/
theorem receiveFrame : Obligations.ReceiveFrame := by
  refine ⟨fun s bs hs => ?_, fun s w => ?_, fun s w lens hs => ?_⟩
  · obtain ⟨t, ht, -, -, hframe⟩ := exec_ingest_next hs bs
    exact ⟨t, ht, hframe.wbuf, hframe.cfg, hframe.cmds, hframe.stale⟩
  · obtain ⟨t, ht, -, -, hframe⟩ := exec_ingest_next (s := s.emptyRx.returns []) (lenLegal_of_rlen_eq_zero rfl) w
    refine ⟨t, (exec_decode w s).trans ht, hframe.wbuf, hframe.cfg, hframe.cmds, fun a ha => hframe.stale a ?_⟩
    simpa using ha
  · obtain ⟨t, ht, -, -, hframe⟩ := feedChunks_next hs (chunks w lens) []
    exact ⟨t, ht, hframe.wbuf, hframe.cfg, hframe.cmds, hframe.stale⟩

theorem read_rbuf_of_acc_eq {s t : State} (h : t.acc = s.acc) {a : Nat} (ha : a < s.rlen.toNat) :
    Memory.read t.rbuf a = Memory.read s.rbuf a := by
  have hrlen : t.rlen.toNat = s.rlen.toNat := by rw [← t.length_acc, h, s.length_acc]
  have hcell := congrArg (·[a]?) h
  simpa [State.acc, Memory.getElem?_slice, hrlen, ha] using hcell

/-- Settles O42: with nothing appended, nothing stripped and no delimiter found the accumulated bytes stay, and beyond them the
frame of INGEST keeps every cell. -/
theorem pollChangesNothing : Obligations.PollChangesNothing := by
  intro s hs hnodelim
  obtain ⟨t, ht, hacc, hresults, hframe⟩ := exec_ingest_next hs []
  have happended : appended s.acc [] = s.acc := by rw [appended, List.take_nil, List.append_nil]
  rw [ingest_of_no_delim (by rwa [happended]), happended] at hacc hresults
  have hdropped : droppedCount s.acc [] = 0 := by rw [droppedCount_eq, List.length_nil, Nat.zero_sub]
  rw [hdropped] at hresults
  have hrlen : t.rlen = s.rlen := BitVec.eq_of_toNat_eq (by rw [← t.length_acc, hacc, s.length_acc])
  refine ⟨t, (exec_poll s).trans ht, ht, hresults, hrlen, hframe.wbuf, hframe.cfg, hframe.cmds, fun a => ?_⟩
  by_cases ha : a < s.rlen.toNat
  · exact read_rbuf_of_acc_eq hacc ha
  · exact hframe.stale a (by rw [List.length_nil]; omega)

/-! ### The issued commands of an operation -/

/-- Performing the INGESTs of a FEED one after another is the FEED but for the outputs. -/
theorem performAll_ingests {s : State} (hs : LenLegal s) (cs : List (List Byte)) (rs : List OpResult) :
    ∃ t qs, performAll (cs.map .ingest) s = .next t ∧ feedChunks cs rs s = .next (t.returns qs) := by
  induction cs generalizing s rs with
  | nil => exact ⟨s, rs, rfl, rfl⟩
  | cons c cs ih =>
    obtain ⟨t, ht, hingested⟩ := exec_ingest_next hs c
    obtain ⟨u, qs, hperform, hfeed⟩ := ih (hingested.lenLegal hs) (rs ++ t.results)
    refine ⟨u, qs, ?_, ?_⟩
    · rw [List.map_cons, performAll, ht, andThen_next, hperform]
    · rw [feedChunks, ← exec_ingest, ht, andThen_next, hfeed]

theorem andThen_performAll_nil (o : Host.Outcome State Fault Refusal) : andThen o (performAll []) = o := by cases o <;> rfl

/-- The commands of an operation are those of the host operations it stands for. -/
theorem encode_eq_flatMap_expansion (i : Instr) : encode i = (expansion i).flatMap encode := by
  cases i with
  | feed w lens =>
    simp only [encode, expansion]
    induction chunks w lens with
    | nil => rfl
    | cons c cs ih => rw [List.map_cons, List.map_cons, List.flatMap_cons, ih]; rfl
  | _ => rfl

theorem hostOperation_of_mem_expansion {i j : Instr} (h : j ∈ expansion i) : HostOperation j = true := by
  cases i with
  | reset | encode | ingest | poll =>
    obtain rfl := List.mem_singleton.1 h
    rfl
  | decode w =>
    obtain rfl | rfl := List.mem_pair.1 h
    · rfl
    · rfl
  | feed w lens =>
    obtain ⟨c, -, rfl⟩ := List.mem_map.1 h
    rfl
  | _ => cases h

theorem length_encode (i : Instr) : (encode i).length = (expansion i).length := by
  cases i with
  | feed w lens => simp [encode, expansion]
  | _ => rfl

theorem runSteps_encode (i : Instr) (s : State) :
    runSteps (encode i).length { s with cmds := encode i } = performAll (expansion i) { s with cmds := [] } := by
  rw [length_encode, encode_eq_flatMap_expansion]
  exact runSteps_issued (fun _ => hostOperation_of_mem_expansion) s

/-- Performing what an operation stands for is performing it, but for the outputs. -/
theorem performAll_expansion {i : Instr} {s : State} (hs : LenLegal s)
    (hi : HostOperation i = true ∨ (∃ w, i = .decode w) ∨ (∃ w lens, i = .feed w lens) ∨ i = .poll) :
    ∃ t qs, performAll (expansion i) s = .next t ∧ exec i s = .next (t.returns qs) := by
  have hsingle : ∀ j : Instr, (∃ t, exec j s = .next t) →
      ∃ t qs, performAll [j] s = .next t ∧ exec j s = .next (t.returns qs) :=
    fun j ⟨t, ht⟩ => ⟨t, t.results, by rw [performAll, andThen_performAll_nil, ht], ht⟩
  obtain hhost | ⟨w, rfl⟩ | ⟨w, lens, rfl⟩ | rfl := hi
  · have hexpansion : expansion i = [i] := by
      obtain rfl | ⟨p, rfl⟩ | ⟨bs, rfl⟩ := hostOperation_cases hhost <;> rfl
    rw [hexpansion]
    exact hsingle i (exec_hostOperation_next hhost hs)
  · obtain ⟨t, ht, -⟩ := exec_ingest_next (s := s.emptyRx.returns []) (lenLegal_of_rlen_eq_zero rfl) w
    refine ⟨t, t.results, ?_, (exec_decode w s).trans ht⟩
    rw [expansion, performAll, exec_reset, andThen_next, performAll, andThen_performAll_nil, ht]
  · exact performAll_ingests hs (chunks w lens) []
  · exact hsingle (.ingest []) (exec_hostOperation_next rfl hs)

/-- Settles O43: the issued commands are performed in turn (`runSteps_encode`), and so are the operations they stand for. -/
theorem issuedExpansionRunsAsTheOperation : Obligations.IssuedExpansionRunsAsTheOperation := by
  intro i s hs hi
  obtain ⟨t, qs, hperform, hexec⟩ := performAll_expansion (s := { s with cmds := [] }) hs hi
  exact ⟨t, _, (runSteps_encode i s).trans hperform, hexec, rfl⟩

end Sys2Proof.Machine
end

section
/-!
What every step keeps (10_state.md R25, 20_memory.md R28), and what no outcome depends on (R16, R20, R23). INGEST is the case
with content in each: it accumulates no delimiter, writes only cells that exist, and is a function of the accumulated bytes.
-/

namespace Sys2Proof.Machine

open Sys2Proof.Spec

/-! ### The state after reset -/

/-- Settles O9: `State.reset` by its fields. -/
theorem resetStateIsEmpty : Obligations.ResetStateIsEmpty := ⟨rfl, rfl, rfl⟩

/-- Settles O10: nothing is accumulated and no cell is listed. -/
theorem resetStateMeetsInvariants : Obligations.ResetStateMeetsInvariants :=
  ⟨lenLegal_of_rlen_eq_zero rfl, nofun, Memory.nil_wf, nofun, Memory.nil_wf, nofun⟩

/-- Settles O15: RESET writes `RLEN` and the outputs, to the same values each time. -/
theorem resetEmptiesTheAccumulator : Obligations.ResetEmptiesTheAccumulator := fun s => ⟨exec_reset s, exec_reset _⟩

/-! ### I-NOFF (R25) -/

theorem noDelimiter_of_acc_nil {s : State} (h : s.acc = []) : NoDelimiter s := by
  rw [NoDelimiter, h]
  exact nofun

theorem exec_decoded_keeps_noDelimiter {c : Command} {i : Instr} {s t : State} (hd : decode c = .ok i) (hs : NoDelimiter s)
    (h : exec i s = .next t) : NoDelimiter t := by
  obtain rfl | ⟨p, rfl⟩ | ⟨bs, rfl⟩ := decode_ok_cases hd
  · rw [exec_reset] at h
    obtain rfl := Host.Outcome.next.inj h
    exact noDelimiter_of_acc_nil rfl
  · by_cases hp : p.length ≤ 251
    · rw [exec_encode_fits hp] at h
      obtain rfl := Host.Outcome.next.inj h
      exact noDelimiter_of_acc_nil rfl
    · rw [exec_encode_oversize (by omega)] at h
      obtain rfl := Host.Outcome.next.inj h
      exact hs
  · rw [NoDelimiter, (ingested_of_exec h).2.acc]
    exact ingest_acc_ne_delim

theorem step_keeps_noDelimiter {s t : State} (hs : NoDelimiter s) (h : step s = .next t) : NoDelimiter t := by
  obtain ⟨-, rfl⟩ | ⟨c, rest, i, -, hd, he⟩ := step_next h
  · exact hs
  · exact exec_decoded_keeps_noDelimiter (s := { s with cmds := rest }) hd hs he

/-- The delimiter the scan finds is not among the bytes accumulated before. -/
theorem length_acc_le_first {acc bs : List Byte} {i : Nat} (h : ∀ b ∈ acc, b ≠ Config.delim)
    (hfirst : first (stripped acc bs) = some i) : acc.length ≤ i := by
  by_cases hacc : acc = []
  · rw [hacc]
    exact Nat.zero_le i
  · rw [stripped_of_acc hacc h, appended, first_append_of_no_delim h, Option.map_eq_some_iff] at hfirst
    obtain ⟨k, -, rfl⟩ := hfirst
    exact Nat.le_add_left _ _

/-- Settles O12: what INGEST leaves accumulated comes from a scan that found no delimiter, or is empty; with accumulated bytes
nothing is stripped, so a delimiter found stands behind them. -/
theorem stepKeepsNoDelimiter : Obligations.StepKeepsNoDelimiter := by
  refine ⟨noDelimiter_of_acc_nil rfl, fun _ _ _ => step_keeps_noDelimiter,
    fun s bs hs hnodelim => ⟨fun hlead => ?_, fun i hi => ?_⟩⟩
  · by_contra hrlen
    have hacc : s.acc ≠ [] := fun h => hrlen (s.rlen_eq_zero_of_acc_nil h)
    rw [leadRun_eq_lead, acc_rxAppend _ _ hs] at hlead
    exact hlead (lead_appended_of_acc hacc hnodelim)
  · rw [rxFind_eq_first, acc_rxStrip, acc_rxAppend _ _ hs] at hi
    exact s.length_acc.symm.trans_le (length_acc_le_first hnodelim hi)

/-! ### The canonical form and the capacities (R28) -/

theorem rxScan_rbuf_wf {w : RxWork} (h : w.rbuf.wf) (s : State) : (rxScan s w).rbuf.wf := by
  obtain hrbuf | ⟨i, -, hrbuf⟩ := rxScan_rbuf_cases s w
  · rwa [hrbuf]
  · rw [hrbuf]
    exact rxWalk_wf h _ _ _

theorem rxScan_rbuf_within {w : RxWork} {cap : Nat} (h : w.rbuf.within cap) (hlen : w.rlen.toNat ≤ cap) (s : State) :
    (rxScan s w).rbuf.within cap := by
  obtain hrbuf | ⟨i, hi, hrbuf⟩ := rxScan_rbuf_cases s w
  · rwa [hrbuf]
  · rw [hrbuf]
    exact rxWalk_within h (by omega) _ _

theorem ingestOp_keeps_rbuf {s t : State} {bs : List Byte} (hwf : s.rbuf.wf) (hwithin : s.rbuf.within 254)
    (h : ingestOp bs s = .next t) : t.rbuf.wf ∧ t.rbuf.within 254 := by
  have hs : LenLegal s := (ingestOp_next h).1
  have hwwf := rxAppend_wf (w := ⟨s.rbuf, s.rlen, 0⟩) hwf bs
  have hwwithin := rxAppend_within (w := ⟨s.rbuf, s.rlen, 0⟩) hwithin bs
  have hwlen := rxAppend_rlen_le_rbufCap ⟨s.rbuf, s.rlen, 0⟩ bs hs
  rw [ingestOp_legal hs] at h
  rw [← Host.Outcome.next.inj h]
  split
  · exact ⟨hwwf, hwwithin⟩
  · exact ⟨rxScan_rbuf_wf (rxStrip_wf hwwf) s,
      rxScan_rbuf_within (rxStrip_within hwwithin hwlen) ((rxStrip_rlen_le _).trans hwlen) s⟩

theorem exec_decoded_keeps_buffers {c : Command} {i : Instr} {s t : State} (hd : decode c = .ok i) (hs : BuffersCanonical s)
    (h : exec i s = .next t) : BuffersCanonical t := by
  obtain ⟨hrwf, hrwithin, hwwf, hwwithin⟩ := hs
  obtain rfl | ⟨p, rfl⟩ | ⟨bs, rfl⟩ := decode_ok_cases hd
  · rw [exec_reset] at h
    obtain rfl := Host.Outcome.next.inj h
    exact ⟨hrwf, hrwithin, hwwf, hwwithin⟩
  · by_cases hp : p.length ≤ 251
    · rw [exec_encode_fits hp] at h
      obtain rfl := Host.Outcome.next.inj h
      exact ⟨hrwf, hrwithin, frameBuffer_wf hwwf _ _, frameBuffer_within hwwithin _ hp⟩
    · rw [exec_encode_oversize (by omega)] at h
      obtain rfl := Host.Outcome.next.inj h
      exact ⟨hrwf, hrwithin, hwwf, hwwithin⟩
  · obtain ⟨htwf, htwithin⟩ := ingestOp_keeps_rbuf hrwf hrwithin h
    rw [BuffersCanonical, (ingested_of_exec h).2.frame.wbuf]
    exact ⟨htwf, htwithin, hwwf, hwwithin⟩

/-- Settles O13: every write keeps the canonical form, and each step of ENCODE and INGEST writes inside its buffer. -/
theorem stepKeepsBuffersCanonical : Obligations.StepKeepsBuffersCanonical := by
  intro s t hs h
  obtain ⟨-, rfl⟩ | ⟨c, rest, i, -, hd, he⟩ := step_next h
  · exact hs
  · exact exec_decoded_keeps_buffers (s := { s with cmds := rest }) hd hs he

/-! ### States with the same content (R16) -/

/-- `RLEN` is the number of accumulated bytes, so it needs no separate comparison. -/
theorem sameContent_of_acc {s t : State} (hacc : s.acc = t.acc) (hcfg : s.cfg = t.cfg) (hcmds : s.cmds = t.cmds) :
    SameContent s t :=
  ⟨BitVec.eq_of_toNat_eq (by rw [← s.length_acc, hacc, t.length_acc]), hacc, hcfg, hcmds⟩

theorem sameOutcome_returns {s t : State} (h : SameContent s t) (rs : List OpResult) :
    SameOutcome (.next (s.returns rs)) (.next (t.returns rs)) := ⟨h, rfl⟩

theorem sameContent_emptyRx {s t : State} (h : SameContent s t) : SameContent s.emptyRx t.emptyRx := by
  obtain ⟨-, -, hcfg, hcmds⟩ := h
  exact sameContent_of_acc rfl hcfg hcmds

theorem sameOutcome_andThen {o o' : Host.Outcome State Fault Refusal} {f g : State → Host.Outcome State Fault Refusal}
    (h : SameOutcome o o') (hfg : ∀ s t, SameContent s t → s.results = t.results → SameOutcome (f s) (g t)) :
    SameOutcome (andThen o f) (andThen o' g) := by
  cases o <;> cases o'
  case next.next s t => exact hfg s t h.1 h.2
  case fault.fault => exact h
  case refused.refused => exact h
  all_goals exact h.elim

section SameContent

variable {s t : State} (h : SameContent s t)
include h

theorem sameOutcome_encode (p : List Byte) : SameOutcome (exec (.encode p) s) (exec (.encode p) t) := by
  by_cases hp : p.length ≤ 251
  · obtain ⟨-, -, hcfg, hcmds⟩ := h
    rw [exec_encode_fits hp, exec_encode_fits hp]
    exact ⟨sameContent_of_acc rfl hcfg hcmds, by rw [encoded_results, encoded_results, hcfg]⟩
  · rw [exec_encode_oversize (by omega), exec_encode_oversize (by omega)]
    exact sameOutcome_returns h _

/-- INGEST is a function of the accumulated bytes and the parameter (R95). -/
theorem sameOutcome_ingest (bs : List Byte) : SameOutcome (ingestOp bs s) (ingestOp bs t) := by
  obtain ⟨hrlen, hacc, hcfg, hcmds⟩ := h
  by_cases hs : LenLegal s
  · obtain ⟨s', hs', hsacc, hsresults, hsframe⟩ := exec_ingest_next hs bs
    obtain ⟨t', ht', htacc, htresults, htframe⟩ := exec_ingest_next (s := t) (by rwa [LenLegal, ← hrlen]) bs
    rw [← exec_ingest, ← exec_ingest, hs', ht']
    rw [← hacc, ← hcfg] at htacc htresults
    exact ⟨sameContent_of_acc (hsacc.trans htacc.symm) (by rw [hsframe.cfg, htframe.cfg, hcfg])
      (by rw [hsframe.cmds, htframe.cmds, hcmds]), hsresults.trans htresults.symm⟩
  · have hillegal : 254 < s.rlen.toNat := Nat.lt_of_not_le hs
    rw [ingestOp_illegal hillegal, ingestOp_illegal (by rwa [← hrlen])]
    rfl

theorem sameOutcome_decode (w : List Byte) : SameOutcome (exec (.decode w) s) (exec (.decode w) t) :=
  sameOutcome_andThen (sameOutcome_returns (sameContent_emptyRx h) []) fun _ _ h _ => sameOutcome_ingest h w

end SameContent

theorem sameOutcome_feedChunks {s t : State} (h : SameContent s t) (cs : List (List Byte)) (rs : List OpResult) :
    SameOutcome (feedChunks cs rs s) (feedChunks cs rs t) := by
  induction cs generalizing s t rs with
  | nil => exact sameOutcome_returns h rs
  | cons c cs ih =>
    refine sameOutcome_andThen (sameOutcome_ingest h c) fun s' t' h' hresults => ?_
    rw [hresults]
    exact ih h' _

/-- Settles O14: RESET, ENCODE and the checksum forms read the parameter at most, and every receive operation is made of
INGESTs, each a function of the accumulated bytes and the parameter. -/
theorem outcomeIgnoresStaleCells : Obligations.OutcomeIgnoresStaleCells := by
  intro i s t hi h
  obtain ⟨-, -, hcfg, -⟩ := id h
  cases i with
  | reset => exact sameOutcome_returns (sameContent_emptyRx h) []
  | encode p => exact sameOutcome_encode h p
  | ingest bs => exact sameOutcome_ingest h bs
  | reserved => rfl
  | crcPartial prior bytes => exact sameOutcome_returns h _
  | crcOf bytes =>
    rw [exec_crcOf, exec_crcOf, hcfg]
    exact sameOutcome_returns h _
  | crcAppend b a n => exact absurd rfl (hi b a n)
  | crcVerify bytes =>
    rw [exec_crcVerify, exec_crcVerify, hcfg]
    exact sameOutcome_returns h _
  | decode w => exact sameOutcome_decode h w
  | feed w lens => exact sameOutcome_feedChunks h (chunks w lens) []
  | poll => exact sameOutcome_ingest h []

end Sys2Proof.Machine
end

section
/-!
How many steps the chain walk makes. Each step writes a delimiter over the cell under the cursor. A cell that held none is used
up (`plainCells`); a cell that held one sends the cursor to 255, beyond every body, and the walk ends (R91). On a frame the walk
visits the occurrences and nothing else (R90).
-/

namespace Sys2Proof.Spec

open Sys2Proof.Machine

theorem walkSteps_stop {i : Nat} {c : Byte} (h : ¬ c.toNat < i) (n : Nat) (m : Memory) : walkSteps i n m c = 0 := by
  cases n with
  | zero => rfl
  | succ n => rw [walkSteps, if_neg h]

theorem walkSteps_go {i : Nat} {c : Byte} (h : c.toNat < i) (n : Nat) (m : Memory) :
    walkSteps i (n + 1) m c = walkSteps i n (Memory.write m c.toNat Config.delim) (Memory.read m c.toNat) + 1 := by
  rw [walkSteps, if_pos h]

/-! ### The bound (R91) -/

/-- The cells of the body that hold no delimiter: those the walk has not yet visited are among them. -/
def plainCells (i : Nat) (m : Memory) : Nat := (Memory.slice m 0 i).countP (· != Config.delim)

theorem plainCells_le (i : Nat) (m : Memory) : plainCells i m ≤ i :=
  List.countP_le_length.trans_eq (Memory.length_slice m 0 i)

/-- A visited cell that held no delimiter is used up. -/
theorem plainCells_write {i k : Nat} {m : Memory} (hk : k < i) (h : Memory.read m k ≠ Config.delim) :
    plainCells i (Memory.write m k Config.delim) + 1 = plainCells i m := by
  have hlen : k < (Memory.slice m 0 i).length := by rwa [Memory.length_slice]
  have hplain : ((Memory.slice m 0 i)[k] != Config.delim) = true := by
    rw [Memory.getElem_slice, Nat.zero_add]
    exact bne_iff_ne.2 h
  have hpos : 0 < (Memory.slice m 0 i).countP (· != Config.delim) :=
    List.countP_pos_iff.2 ⟨_, List.getElem_mem hlen, hplain⟩
  rw [plainCells, Memory.slice_write_inside, List.countP_set hlen, if_pos hplain, if_neg (by simp), plainCells]
  omega

/-- From a cell that holds a delimiter the cursor leaves the body. -/
theorem walk_of_delim {i : Nat} (hi : i ≤ 255) {m : Memory} {c : Byte} (hc : c.toNat < i)
    (hdelim : Memory.read m c.toNat = Config.delim) (n : Nat) :
    walkSteps i (n + 1) m c = 1 ∧ rxWalk i (n + 1) m c = Memory.write m c.toNat Config.delim := by
  have hout : ¬ Config.delim.toNat < i := Nat.not_lt.2 hi
  rw [walkSteps_go hc, rxWalk_go hc, hdelim, walkSteps_stop hout, rxWalk_stop hout]
  exact ⟨rfl, rfl⟩

/-- With `k` plain cells left the walk makes at most `k + 1` steps, and no larger bound changes what it does. -/
theorem walk_bounded {i k n : Nat} (hi : i ≤ 255) {m : Memory} {c : Byte} (hk : plainCells i m ≤ k) (hn : k + 1 ≤ n) :
    walkSteps i n m c ≤ k + 1 ∧ rxWalk i n m c = rxWalk i (k + 1) m c := by
  induction n generalizing k m c with
  | zero => exact absurd hn (Nat.not_succ_le_zero k)
  | succ n ih =>
    by_cases hc : c.toNat < i
    · by_cases hdelim : Memory.read m c.toNat = Config.delim
      · obtain ⟨hsteps, hwalk⟩ := walk_of_delim hi hc hdelim n
        exact ⟨by omega, hwalk.trans (walk_of_delim hi hc hdelim k).2.symm⟩
      · have hused := plainCells_write hc hdelim
        obtain ⟨k, rfl⟩ : ∃ k', k = k' + 1 := ⟨k - 1, by omega⟩
        obtain ⟨hsteps, hwalk⟩ := ih (k := k) (m := Memory.write m c.toNat Config.delim) (c := Memory.read m c.toNat)
          (by omega) (by omega)
        rw [walkSteps_go hc, rxWalk_go hc, rxWalk_go hc]
        exact ⟨Nat.succ_le_succ hsteps, hwalk⟩
    · rw [walkSteps_stop hc, rxWalk_stop hc, rxWalk_stop hc]
      exact ⟨Nat.zero_le _, rfl⟩

/-- Settles O28: a body of `i` cells has at most `i` plain ones; with `i = 1` and a head of 0 the walk comes back to the head
once. -/
theorem walkEndsWithinBound : Obligations.WalkEndsWithinBound := by
  refine ⟨fun i n m c hi hn => walk_bounded (by omega) (plainCells_le i m) hn, fun n m hhead hn => ?_⟩
  obtain ⟨n, rfl⟩ := Nat.exists_eq_add_of_le' hn
  have hin : (0 : Byte).toNat < 1 := Nat.one_pos
  have hout : ¬ Config.delim.toNat < 1 := by decide
  rw [hhead, walkSteps_go hin, show Memory.read m (0 : Byte).toNat = 0 from hhead, walkSteps_go hin, Memory.read_write_same,
    walkSteps_stop hout]

/-! ### On a frame (R90) -/

theorem walkSteps_chained {v : Byte} {i : Nat} (hv : i ≤ v.toNat) (hi : i ≤ 255) {m : Memory} {j n : Nat} {u : List Byte}
    (hcells : Memory.slice m j u.length = chained v j u) (hlen : j + u.length = i) (hn : occurrences u ≤ n) :
    walkSteps i n m (nextLink v j u) = occurrences u := by
  induction u generalizing m j n with
  | nil => exact walkSteps_stop (Nat.not_lt.2 hv) n m
  | cons b bs ih =>
    rw [List.length_cons] at hlen hcells
    rw [Memory.slice_succ, chained] at hcells
    obtain ⟨hcell, htail⟩ := List.cons.inj hcells
    by_cases hb : b = Config.delim
    · subst hb
      have hocc : occurrences (Config.delim :: bs) = occurrences bs + 1 := List.countP_cons_of_pos (by simp)
      obtain ⟨n, rfl⟩ : ∃ n', n = n' + 1 := ⟨n - 1, by omega⟩
      have hcursor : (BitVec.ofNat 8 j).toNat = j := toNat_ofNat_of_le (by omega)
      rw [if_pos rfl] at hcell
      rw [nextLink, if_pos rfl, walkSteps_go (by omega), hcursor, hcell, hocc]
      refine congrArg (· + 1) (ih ?_ (by omega) (by omega))
      rw [Memory.slice_write_outside (.inl (Nat.lt_add_one j)), htail]
    · have hocc : occurrences (b :: bs) = occurrences bs := List.countP_cons_of_neg (by simpa using hb)
      rw [nextLink, if_neg hb, hocc]
      exact ih htail (by omega) (by omega)

/-- Settles O29: the cells before the cursor are restored and those from it on still transformed, at every step; each step
restores one occurrence. -/
theorem walkRestoresTheBody : Obligations.WalkRestoresTheBody := by
  intro m init p hp hframe
  rw [frame, take_frameEndingWith] at hframe
  have hsentinel := length_le_sentinel (p := p) (by omega)
  refine ⟨?_, ?_⟩
  · rw [show p.length + 2 = p.length + 3 - 1 by omega, slice_restore m (by omega) (Nat.lt_add_one _), Memory.slice_add, hframe]
    exact restoredBlock_chainedBody hsentinel _
  · obtain ⟨hhead, hcells⟩ := List.cons.inj hframe
    rw [hhead]
    have hocc := occurrences_le_length (body init p)
    rw [length_body] at hocc
    exact walkSteps_chained hsentinel (by omega) (by rwa [length_body]) (by rw [length_body]; omega) (by omega)

end Sys2Proof.Spec
end
